-- ==== Sys2Proof/Word.lean ====
section
/-! DEFINITION. The bit widths the spec names (00_scope.md R10, R11): a byte, a word, and a 64-bit register. -/

namespace Sys2Proof

/-- A byte, `u8` (R10, R11). -/
abbrev Byte := BitVec 8

/-- A word, `u16`: an ARG register, a coordinate, a colour (R10, R11). -/
abbrev Word := BitVec 16

/-- A 64-bit register of the calibration matrix, `i64` (R11, R31). -/
abbrev Quad := BitVec 64

end Sys2Proof
end

