-- ==== Sys2Proof/Syntax.lean ====
section
/-! DEFINITION. The command set DFC-CMD 1.0 (00_scope.md R3): one constructor per row of the opcode map
(30_encoding.md R103), and the fields of a command word (R100). No command carries an operand: all are taken
from the ARG registers (R102). -/

namespace Sys2Proof

/-- The 22 commands, in the order of R103. -/
inductive Instr where
  | nop | writeIndex | writeData | readData | writeReg | readReg
  | setCursor | setPoint | getPoint | clear | setOrient
  | line | box | boxFill | circle | circleFill
  | putChar
  | touchAcquire | touchFilter
  | calSolve | calApply | calApplyRaw
  deriving DecidableEq, Repr

/-- A command word split into the two fields of format C (R100): bits 15:8 and bits 7:0. -/
structure CommandWord where
  zero : Byte
  opcode : Byte
  deriving DecidableEq, Repr

/-- The protocol and surface rows of the opcode map (R103). -/
def lowRows : List (Byte × Instr) :=
  [(0x00, .nop), (0x01, .writeIndex), (0x02, .writeData), (0x03, .readData), (0x04, .writeReg), (0x05, .readReg),
   (0x10, .setCursor), (0x11, .setPoint), (0x12, .getPoint), (0x13, .clear), (0x14, .setOrient)]

/-- The raster, text, touch and calibration rows of the opcode map (R103). -/
def highRows : List (Byte × Instr) :=
  [(0x20, .line), (0x21, .box), (0x22, .boxFill), (0x23, .circle), (0x24, .circleFill), (0x28, .putChar),
   (0x30, .touchAcquire), (0x31, .touchFilter), (0x40, .calSolve), (0x41, .calApply), (0x42, .calApplyRaw)]

/-- The 22 assigned opcodes with their commands (R103). -/
def opcodeMap : List (Byte × Instr) := lowRows ++ highRows

end Sys2Proof
end

