-- ==== Sys2Proof/Decode.lean ====
section
/-! DEFINITION. Decoding a command word (30_encoding.md R100, R101, R103, R104) and, after it, the encoder. -/

namespace Sys2Proof

/-- Why a word is no command: the `zero` field is not zero, or the opcode is unassigned (R101). -/
inductive Reject where
  | nonzeroUpperByte
  | unassignedOpcode
  deriving DecidableEq, Repr

/-- The two fields of a command word (R100). -/
def splitWord (w : Word) : CommandWord :=
  { zero := w.extractLsb' 8 8, opcode := w.extractLsb' 0 8 }

/-- The command of an opcode (R103). -/
def commandOf (opcode : Byte) : Option Instr :=
  opcodeMap.lookup opcode

/-- R101: total, and independent of any state. -/
def decode (w : Word) : Except Reject Instr :=
  if (splitWord w).zero = 0 then
    match commandOf (splitWord w).opcode with
    | some i => .ok i
    | none => .error .unassignedOpcode
  else .error .nonzeroUpperByte

/-- The opcode column of R103. -/
def opcodeOf : Instr → Byte
  | .nop => 0x00
  | .writeIndex => 0x01
  | .writeData => 0x02
  | .readData => 0x03
  | .writeReg => 0x04
  | .readReg => 0x05
  | .setCursor => 0x10
  | .setPoint => 0x11
  | .getPoint => 0x12
  | .clear => 0x13
  | .setOrient => 0x14
  | .line => 0x20
  | .box => 0x21
  | .boxFill => 0x22
  | .circle => 0x23
  | .circleFill => 0x24
  | .putChar => 0x28
  | .touchAcquire => 0x30
  | .touchFilter => 0x31
  | .calSolve => 0x40
  | .calApply => 0x41
  | .calApplyRaw => 0x42

/-- The command word of a command: format C with a zero upper byte (R100). -/
def encode (i : Instr) : Word :=
  (0x00 : Byte) ++ opcodeOf i

/-- The decoder on a row of the opcode table: an instruction of `nbits` bits whose value is `w`. A command is
one 16-bit word (R100), so a value of more than 16 bits is no command. -/
def decodeTableWord (nbits w : Nat) : Option Instr :=
  if w % 2 ^ nbits < 2 ^ 16 then
    match decode (BitVec.ofNat 16 (w % 2 ^ nbits)) with
    | .ok i => some i
    | .error _ => none
  else none

end Sys2Proof
end

