-- ==== Sys2Proof/Config.lean ====
section
/-! DEFINITION. The configuration record `cfg` (00_scope.md R8) and the free values: what the spec leaves open
is either a field of `Cfg` or an opaque constant without a body. -/

namespace Sys2Proof

/-- The bitmap of one character code: 16 rows of 8 one-bit pixels (43_text_blit.md R190). -/
structure Glyph where
  code : Byte
  rows : Vector Byte 16
  deriving DecidableEq, Repr, Inhabited

/-- The configuration as R8's table lists it, unchecked. `WellFormed.lean` says which of these the model takes. -/
structure RawCfg where
  wNative : Nat
  hNative : Nat
  threshold : Nat
  startPrefix : BitVec 5
  startReserved : BitVec 1
  rsData : BitVec 1
  rwRead : BitVec 1
  scanReg : Byte
  scanPortrait : Word
  scanLandscape : Word
  font : List Glyph
  rawMax : Int
  deriving DecidableEq, Repr, Inhabited

/-- The configuration the machine runs with: R8's constraints hold of every value of this type, so that an
ill-formed configuration (93_implementation_defined.md U17, and R72's last sentence) cannot be held.
`wSpan` and `hSpan` are the native width and height less one; `scanSlot` counts the panel addresses that are
not 0x20, 0x21 or 0x22. `Machine/Board.lean` reads R8's parameters off these fields. -/
structure Cfg where
  wSpan : Fin 32767
  hSpan : Fin 32767
  threshold : Word
  startPrefix : BitVec 5
  startReserved : BitVec 1
  rsData : BitVec 1
  rwRead : BitVec 1
  scanSlot : Fin 253
  scanPortrait : Word
  scanLandscape : Word
  font : List Glyph
  rawMax : Int
  deriving DecidableEq, Repr, Inhabited

namespace Config

/-- The configuration of the board at reset: every parameter is open (R8, 92_eei_decisions.md D10, D11, D19,
D25, D28), so no value is chosen (log entry 1). -/
opaque board : Cfg

/-- The n-th byte received where nothing depends on it (20_memory.md R73 `d0`, `d1`, R75; log entry 4). -/
opaque freeByte : Nat → Byte

/-- The n-th 16-bit value a panel read returns where the contract says "any value" (R73; log entry 4). -/
opaque freeRead : Nat → Word

/-- The n-th touch-ready level, true for asserted (R64; log entry 4). -/
opaque freeReady : Nat → Bool

/-- The n-th raw channel value (R65; log entry 4). -/
opaque freeTouch : Nat → Word

/-- The content of a GRAM cell that nothing has written since the `epoch`-th change of geometry
(R72 "every GRAM cell <- any value"; log entry 7). -/
opaque freePixel : (epoch key : Nat) → Word

/-- The n-th value of a host read whose value the spec leaves unspecified (60_exceptions.md R240; log entry 3). -/
opaque freeHost : Nat → Quad

end Config

end Sys2Proof
end

