-- ==== Sys2Proof/Machine/State.lean ====
section
/-! DEFINITION. The state of the machine as plain data (10_state.md; 20_memory.md R61, R63, R70), the reasons a
step can stop, and the state after reset (10_state.md R33). -/

namespace Sys2Proof.Machine

/-- The active orientation (R27): 0 is portrait, 1 is landscape; no other value is ever stored. -/
inductive Orient where
  | portrait
  | landscape
  deriving DecidableEq, Repr

/-- The level of the touch-ready line (R64): asserted is electrically low, the panel is pressed. -/
inductive Level where
  | asserted
  | deasserted
  deriving DecidableEq, Repr

/-- The two analog channels of the touch controller (R65). -/
inductive Channel where
  | x
  | y
  deriving DecidableEq, Repr

/-- The sub-device the shared bus is selected to, at that device's clock rate (R63). -/
inductive SubDevice where
  | display
  | touch
  deriving DecidableEq, Repr

/-- The transport events (R61). -/
inductive Event where
  | xchg (tx rx : List Byte)
  | gpioRead (level : Level)
  | touchXchg (ch : Channel) (v : Word)
  deriving DecidableEq, Repr

/-- The cause codes (60_exceptions.md R242). -/
inductive ErrCode where
  | illegalCmd
  | notInit
  | degenerateCalibration
  | noisyTouchSample
  | incompleteTouchGesture
  | resultRange
  | noRawPoint
  | badOrient
  deriving DecidableEq, Repr

/-- The host register file (R20), every register under its own name. -/
structure Regs where
  arg : Vector Word 12
  res0 : Word
  res1 : Word
  busy : Bool
  err : Bool
  orientValid : Bool
  rawValid : Bool
  dispValid : Bool
  errCode : Byte
  orient : Orient
  rawX : Word
  rawY : Word
  dispX : Word
  dispY : Word
  swx : Vector Word 9
  swy : Vector Word 9
  swCount : BitVec 4
  an : Quad
  bn : Quad
  cn : Quad
  dn : Quad
  en : Quad
  fn : Quad
  divider : Quad
  deriving DecidableEq, Repr

/-- The pixel memory GRAM (R70): cells (key, colour) with keys strictly rising. A key that is not listed holds
a value nobody has stored since the geometry was set; `Machine/Memory.lean` reads and writes it. -/
structure Memory where
  cells : List (Nat × Word)
  deriving DecidableEq, Repr

/-- The canonical form: the keys rise strictly. An unlisted key reads as `none`, which no entry can equal
(log entry 7). -/
abbrev Memory.wf (m : Memory) : Prop :=
  m.cells.Pairwise fun a b => a.1 < b.1

/-- The geometry of the panel, `(PW, PH)` (R70). -/
structure Geom where
  w : Nat
  h : Nat
  deriving DecidableEq, Repr

/-- The panel contract's state (R70). `dead` is R70's `void`: once true, the contract says nothing more.
`epoch` counts the changes of geometry (log entry 7). -/
structure Panel where
  ir : Byte
  ax : Word
  ay : Word
  geom : Option Geom
  gram : Memory
  epoch : Nat
  rdv : Bool
  dead : Bool
  deriving DecidableEq, Repr

/-- What the environment answers (R64, R65, R73): supplied answers, oldest first, and, when a supply has run
out, the `drawn`-th free value of `Config` (log entry 4). -/
structure Env where
  ready : List Level
  touch : List Word
  reads : List Word
  drawn : Nat
  deriving DecidableEq, Repr

/-- The transport side of the DFC: the event list (newest first), the bus selection, the panel, the
environment. -/
structure Link where
  trace : List Event
  bus : SubDevice
  panel : Panel
  env : Env
  deriving DecidableEq, Repr

/-- A value a host read returns, at the register's own width (R20). -/
inductive HostVal where
  | half (v : Word)
  | quad (v : Quad)
  deriving DecidableEq, Repr

/-- One access of the host (R20, R22, R270): a write of a register, a read of a register, a reset. -/
inductive HostAccess where
  | write (index : BitVec 7) (v : Word)
  | read (index : BitVec 7)
  | reset
  deriving DecidableEq, Repr

/-- The machine: configuration, register file, transport side, the host's pending accesses (oldest first) and
the value the latest host read returned (log entries 1 and 2). -/
structure State where
  cfg : Cfg
  regs : Regs
  link : Link
  host : List HostAccess
  reply : Option HostVal
  deriving DecidableEq, Repr

/-- Why a step could stop with a fault: nothing. Every command terminates (60_exceptions.md R240) and the
transport is assumed reliable (R245); an error of a command is a next state (R241). -/
inductive Fault where
  deriving DecidableEq, Repr

/-- Why a step could be refused. -/
inductive Refusal where
  /-- Raised by an arm of `exec` whose command has no meaning yet (safe). No arm raises it. -/
  | notModelled (mnemonic : String)
  deriving DecidableEq, Repr

/-- The register file after reset (R33): every register zero, nothing valid, no command in progress. -/
def Regs.reset : Regs where
  arg := Vector.replicate 12 0
  res0 := 0
  res1 := 0
  busy := false
  err := false
  orientValid := false
  rawValid := false
  dispValid := false
  errCode := 0
  orient := .portrait
  rawX := 0
  rawY := 0
  dispX := 0
  dispY := 0
  swx := Vector.replicate 9 0
  swy := Vector.replicate 9 0
  swCount := 0
  an := 0
  bn := 0
  cn := 0
  dn := 0
  en := 0
  fn := 0
  divider := 0

/-- The panel before initialisation (R79): no geometry, the contract in force. R79 leaves `ir`, `ax`, `ay` and
`rdv` unspecified; the values here are the model's (log entry 8). -/
def Panel.reset : Panel where
  ir := 0
  ax := 0
  ay := 0
  geom := none
  gram := { cells := [] }
  epoch := 0
  rdv := false
  dead := false

/-- The environment before anything was drawn or supplied (log entry 4). -/
def Env.reset : Env where
  ready := []
  touch := []
  reads := []
  drawn := 0

/-- The transport side after reset: the event list is empty (R33); the bus is selected to the display, which is
the host's duty (R63, R273; log entry 9). -/
def Link.reset : Link where
  trace := []
  bus := .display
  panel := Panel.reset
  env := Env.reset

/-- The machine right after reset (R33, R270, R271): the DFC waits for the host. -/
def State.reset : State where
  cfg := Config.board
  regs := Regs.reset
  link := Link.reset
  host := []
  reply := none

end Sys2Proof.Machine
end

