-- ==== Sys2Proof/Machine/Flags.lean ====
section
/-! DEFINITION. The STATUS word and its derived flags (10_state.md R24, R25), and the numbers of the cause codes
(60_exceptions.md R242). -/

namespace Sys2Proof.Machine

/-- The cause code of an error (R242). -/
def ErrCode.code : ErrCode → Byte
  | .illegalCmd => 1
  | .notInit => 2
  | .degenerateCalibration => 3
  | .noisyTouchSample => 4
  | .incompleteTouchGesture => 5
  | .resultRange => 6
  | .noRawPoint => 7
  | .badOrient => 8

/-- STATUS.MATRIX_VALID: 1 exactly when DIVIDER is not 0 (R24, R31). -/
def Regs.matrixValid (r : Regs) : Bool := r.divider != 0

/-- STATUS.TP_PRESSED: the level of the touch-ready line, 1 for asserted (R24). -/
def Level.pressed : Level → Bool
  | .asserted => true
  | .deasserted => false

/-- The STATUS word a host read returns when the line has the given level (R24): bits 15:7 are 0. -/
def statusWord (r : Regs) (line : Level) : Word :=
  (0 : BitVec 9) ++ BitVec.ofBool line.pressed ++ BitVec.ofBool r.matrixValid ++ BitVec.ofBool r.dispValid ++
    BitVec.ofBool r.rawValid ++ BitVec.ofBool r.orientValid ++ BitVec.ofBool r.err ++ BitVec.ofBool r.busy

end Sys2Proof.Machine
end

