-- ==== Sys2Proof/WellFormed.lean ====
section
/-! DEFINITION. Well-formedness. A term of `Instr` carries no field, so every term is well formed; what can be
ill formed is a command word (30_encoding.md R101) and a configuration (00_scope.md R8, 20_memory.md R72). -/

namespace Sys2Proof

/-- R101, R104: the upper byte is zero and the opcode is one of the 22. -/
def CommandWord.wf (c : CommandWord) : Bool :=
  c.zero == 0 && opcodeMap.any fun row => row.1 == c.opcode

/-- R8: each dimension is in 1..32767, the product is below 2^32, the threshold is in 0..65535. R72: the
scan-direction register is none of the cursor and pixel registers. -/
def RawCfg.wf (r : RawCfg) : Bool :=
  (1 ≤ r.wNative && r.wNative ≤ 32767) && (1 ≤ r.hNative && r.hNative ≤ 32767) &&
  r.wNative * r.hNative < 2 ^ 32 && r.threshold ≤ 65535 &&
  r.scanReg != 0x20 && r.scanReg != 0x21 && r.scanReg != 0x22

end Sys2Proof
end

