-- ==== Sys2Proof/Machine/Board.lean ====
section
/-! DEFINITION. R8's parameters read off the configuration, and what the rules compute from them alone: the
start bytes (30_encoding.md R105, R106), the addressable area (10_state.md R27), glyphs (43_text_blit.md R190). -/

namespace Sys2Proof.Machine

/-- `cfg.wNative`: 1..32767 (R8). -/
def wNative (c : Cfg) : Nat := c.wSpan.val + 1

/-- `cfg.hNative`: 1..32767 (R8). -/
def hNative (c : Cfg) : Nat := c.hSpan.val + 1

/-- `cfg.scanReg`: any panel address but 0x20, 0x21 and 0x22 (R8, R72). -/
def scanReg (c : Cfg) : Byte :=
  if c.scanSlot.val < 0x20 then BitVec.ofNat 8 c.scanSlot.val else BitVec.ofNat 8 (c.scanSlot.val + 3)

/-- `cfg.scanValue` (R8). -/
def scanValue (c : Cfg) : Orient → Word
  | .portrait => c.scanPortrait
  | .landscape => c.scanLandscape

/-- The row bytes of the first listed glyph with this code. -/
def glyphIn (ch : Byte) : List Glyph → Option (Vector Byte 16)
  | [] => none
  | g :: rest => if g.code = ch then some g.rows else glyphIn ch rest

/-- `cfg.glyph(ch)(row)` (R8, R190): a total function; a code the font does not list has blank rows
(log entry 14). -/
def glyphRow (c : Cfg) (ch : Byte) (row : Nat) : Byte :=
  match glyphIn ch c.font with
  | some rows => rows.toList.getD row 0
  | none => 0

/-- The checked configuration of R8's table (93_implementation_defined.md U17): an ill-formed one is refused. -/
def checkCfg (r : RawCfg) : Option Cfg :=
  if r.wf then
    some { wSpan := Fin.ofNat 32767 (r.wNative - 1)
           hSpan := Fin.ofNat 32767 (r.hNative - 1)
           threshold := BitVec.ofNat 16 r.threshold
           startPrefix := r.startPrefix
           startReserved := r.startReserved
           rsData := r.rsData
           rwRead := r.rwRead
           scanSlot := Fin.ofNat 253 (if r.scanReg.toNat < 0x20 then r.scanReg.toNat else r.scanReg.toNat - 3)
           scanPortrait := r.scanPortrait
           scanLandscape := r.scanLandscape
           font := r.font
           rawMax := r.rawMax }
  else none

/-- A start byte: prefix in bits 7:3, RS in bit 2, RW in bit 1, the reserved bit in bit 0 (R105). -/
def startByte (c : Cfg) (rs rw : BitVec 1) : Byte :=
  c.startPrefix ++ rs ++ rw ++ c.startReserved

/-- `SB_WI`: write, index (R106). -/
def sbWI (c : Cfg) : Byte := startByte c (~~~ c.rsData) (~~~ c.rwRead)

/-- `SB_WD`: write, data (R106). -/
def sbWD (c : Cfg) : Byte := startByte c c.rsData (~~~ c.rwRead)

/-- `SB_RD`: read, data (R106). -/
def sbRD (c : Cfg) : Byte := startByte c c.rsData c.rwRead

/-- The addressable area `(W, H)` of an orientation (R27), which is also `dims(o)` of R72. -/
def dims (c : Cfg) : Orient → Geom
  | .portrait => { w := wNative c, h := hNative c }
  | .landscape => { w := hNative c, h := wNative c }

/-- The geometry a value written to the scan-direction register selects (R72): `dims(o)` for an orientation `o`
with that scan value. Where both orientations have the value and give different geometries, R72 does not say
which is meant, and none is selected (log entry 10). -/
def scanGeom (c : Cfg) (v : Word) : Option Geom :=
  if v = scanValue c .portrait then
    if v = scanValue c .landscape ∧ dims c .portrait ≠ dims c .landscape then none
    else some (dims c .portrait)
  else if v = scanValue c .landscape then some (dims c .landscape)
  else none

end Sys2Proof.Machine
end

