-- ==== Sys2Proof/Machine/Memory.lean ====
section
/-! DEFINITION. The pixel memory GRAM (20_memory.md R67, R70): its keys, the read and the write of one cell. -/

namespace Sys2Proof.Machine

/-- The key of the cell of pixel (x, y): x in the low 16 bits, y above. -/
def pixelKey (x y : Word) : Nat := y.toNat * 65536 + x.toNat

/-- The value listed for a key. -/
def findCell (k : Nat) : List (Nat × Word) → Option Word
  | [] => none
  | (k', v) :: rest => if k = k' then some v else findCell k rest

/-- The cells with the value of one key set, in rising order of the keys. -/
def insertCell (k : Nat) (v : Word) : List (Nat × Word) → List (Nat × Word)
  | [] => [(k, v)]
  | (k', v') :: rest =>
    if k < k' then (k, v) :: (k', v') :: rest
    else if k = k' then (k, v) :: rest
    else (k', v') :: insertCell k v rest

/-- What is known of a cell: the value stored there since the geometry was set, or `none`. -/
def Memory.read (m : Memory) (k : Nat) : Option Word := findCell k m.cells

/-- The store of one cell. -/
def Memory.write (m : Memory) (k : Nat) (v : Word) : Memory := { cells := insertCell k v m.cells }

/-- A memory in which no cell is known. -/
def Memory.unknown : Memory := { cells := [] }

end Sys2Proof.Machine
end

