-- ==== Sys2Proof/Machine/Operands.lean ====
section
/-! DEFINITION. Operand forms (30_encoding.md R102), byte order (20_memory.md R69), widening and the colour
conversion (41_display_surface.md R144). -/

namespace Sys2Proof.Machine

/-- `x[i]`: ARG`i` whole (R12, R102). -/
def Regs.x (r : Regs) (i : Fin 12) : Word := r.arg[i]

/-- The low byte of an ARG register, `x[i][7:0]`: a panel address or a character code (R102). -/
def Regs.xLow (r : Regs) (i : Fin 12) : Byte := (r.x i).extractLsb' 0 8

/-- An operand used in `Z`: its unsigned value (R102). -/
def Regs.xInt (r : Regs) (i : Fin 12) : Int := ((r.x i).toNat : Int)

/-- The orientation operand of SET_ORIENT: the whole register, 0 or 1 (R102, R148). -/
def orientOperand (v : Word) : Option Orient :=
  if v = 0 then some .portrait else if v = 1 then some .landscape else none

/-- The number ORIENT holds (R27). -/
def orientCode : Orient → Word
  | .portrait => 0
  | .landscape => 1

/-- `v[15:8]`, sent first (R69). -/
def hiByte (v : Word) : Byte := v.extractLsb' 8 8

/-- `v[7:0]`, sent last (R69). -/
def loByte (v : Word) : Byte := v.extractLsb' 0 8

/-- `h ++ l`, the word of two received bytes (R69, R109). -/
def joinBytes (h l : Byte) : Word := h ++ l

/-- The conversion between native and conventional channel order (R144): `v[4:0] ++ v[10:5] ++ v[15:11]`. -/
def swapRB (v : Word) : Word :=
  v.extractLsb' 0 5 ++ v.extractLsb' 5 6 ++ v.extractLsb' 11 5

/-- `u16(v)`: a number of `Z` modulo 2^16 (R11). -/
def u16 (v : Int) : Word := BitVec.ofInt 16 v

end Sys2Proof.Machine
end

