-- ==== Sys2Proof/Machine/Panel.lean ====
section
/-! DEFINITION. The panel contract (20_memory.md R70 to R75): what the external panel does with one frame. -/

namespace Sys2Proof.Machine

/-- The frames of the panel contract (30_encoding.md R107 to R109); `alien` is a frame the DFC never sends (R71). -/
inductive FrameKind where
  | index (a : Byte)
  | data (v : Word)
  | read
  | alien
  deriving DecidableEq, Repr

/-- How the panel reads the transmitted bytes of a frame (R71 to R73). -/
def frameKind (c : Cfg) (tx : List Byte) : FrameKind :=
  match tx with
  | [s, b, a] => if s = sbWI c ∧ b = 0 then .index a else if s = sbWD c then .data (joinBytes b a) else .alien
  | [s, b, a, z] => if s = sbRD c ∧ b = 0 ∧ a = 0 ∧ z = 0 then .read else .alien
  | _ => .alien

/-- The cursor is inside the geometry: the condition of R72 and R73. -/
def Panel.cursorInside (p : Panel) : Bool :=
  match p.geom with
  | some g => p.ax.toNat < g.w && p.ay.toNat < g.h
  | none => false

/-- The content of the cell of (x, y): the stored value, or the free value the cell holds since the geometry
was set (R72 "every GRAM cell <- any value"; log entry 7). -/
def Panel.cell (p : Panel) (x y : Word) : Word :=
  (p.gram.read (pixelKey x y)).getD (Config.freePixel p.epoch (pixelKey x y))

/-- What the contract says of pixel (x, y): GRAM[x, y] when the contract is in force and the pixel is inside
the geometry (R70). -/
def Panel.pixel (p : Panel) (x y : Word) : Option Word :=
  match p.geom with
  | some g => if p.dead then none else if x.toNat < g.w ∧ y.toNat < g.h then some (p.cell x y) else none
  | none => none

/-- R71. -/
def Panel.indexWrite (p : Panel) (a : Byte) : Panel := { p with ir := a, rdv := false }

/-- The contract says nothing any more (R70 `void`). -/
def Panel.kill (p : Panel) : Panel := { p with dead := true }

/-- The auto-increment (R74) in the geometry `g`. -/
def Panel.advance (p : Panel) (g : Geom) : Panel :=
  let ax := p.ax + 1
  let wrapX : Bool := ax.toNat == g.w
  let ay := if wrapX then p.ay + 1 else p.ay
  { p with ax := if wrapX then 0 else ax, ay := if ay.toNat == g.h then 0 else ay }

/-- A pixel write at the cursor (R72, IR = 0x22). -/
def Panel.pixelWrite (p : Panel) (v : Word) : Panel :=
  match p.geom with
  | some g =>
    if p.cursorInside then
      { ({ p with gram := p.gram.write (pixelKey p.ax p.ay) v } : Panel).advance g with rdv := false }
    else p.kill
  | none => p.kill

/-- A write of the scan-direction register (R72, IR = cfg.scanReg). A change of geometry leaves every cell
with a fresh free value. -/
def Panel.scanWrite (c : Cfg) (p : Panel) (v : Word) : Panel :=
  match scanGeom c v with
  | some g =>
    if p.geom = some g then p
    else { p with geom := some g, gram := Memory.unknown, epoch := p.epoch + 1 }
  | none => p.kill

/-- A data write, by the value of IR (R72). -/
def Panel.dataWrite (c : Cfg) (p : Panel) (v : Word) : Panel :=
  if p.ir = 0x20 then { p with ax := v, rdv := false }
  else if p.ir = 0x21 then { p with ay := v, rdv := false }
  else if p.ir = 0x22 then p.pixelWrite v
  else if p.ir = scanReg c then p.scanWrite c v
  else p.kill

/-- The value a read frame returns in its last two bytes (R73): `none` where R73 says "any value". -/
def Panel.readValue (p : Panel) : Option Word :=
  if !p.dead && p.ir == 0x22 && p.rdv && p.cursorInside then some (swapRB (p.cell p.ax p.ay)) else none

/-- What a read frame changes (R73): the latch becomes valid at IR = 0x22. -/
def Panel.latch (p : Panel) : Panel :=
  if p.dead then p else if p.ir = 0x22 then { p with rdv := true } else p

/-- What a frame does to the panel (R71 to R73). Once `dead`, nothing more is said (log entry 6). -/
def Panel.receive (c : Cfg) (p : Panel) (k : FrameKind) : Panel :=
  if p.dead then p
  else match k with
    | .index a => p.indexWrite a
    | .data v => p.dataWrite c v
    | .read => p.latch
    | .alien => p.kill

end Sys2Proof.Machine
end

