-- ==== Sys2Proof/Machine/Ops.lean ====
section
/-! DEFINITION. The operations every command is built from: draws from the environment, the transport
(20_memory.md R60 to R65), the frame-level operations (40_register_protocol.md R121 to R125), cursor and pixel
operations (41_display_surface.md R140 to R143), and a command's start, end and `raise Err` (60_exceptions.md
R240, R241). -/

namespace Sys2Proof.Machine

/-- The event list in the order the events happened (R61). -/
def State.events (s : State) : List Event := s.link.trace.reverse

/-- The transport side replaced. -/
def State.setLink (s : State) (l : Link) : State := { s with link := l }

/-- The register file replaced. -/
def State.setRegs (s : State) (r : Regs) : State := { s with regs := r }

/-! ### Draws from the environment (log entry 4) -/

/-- `n` received bytes nothing depends on (R73, R75). -/
def Env.drawBytes : Nat → Env → List Byte × Env
  | 0, e => ([], e)
  | n + 1, e =>
    let rest := Env.drawBytes n { e with drawn := e.drawn + 1 }
    (Config.freeByte e.drawn :: rest.1, rest.2)

/-- A value the panel contract calls "any value" (R73). -/
def Env.drawRead (e : Env) : Word × Env :=
  match e.reads with
  | v :: rest => (v, { e with reads := rest })
  | [] => (Config.freeRead e.drawn, { e with drawn := e.drawn + 1 })

/-- The touch-ready level (R64). -/
def Env.drawReady (e : Env) : Level × Env :=
  match e.ready with
  | v :: rest => (v, { e with ready := rest })
  | [] => (if Config.freeReady e.drawn then .asserted else .deasserted, { e with drawn := e.drawn + 1 })

/-- A raw channel value (R65). -/
def Env.drawTouch (e : Env) : Word × Env :=
  match e.touch with
  | v :: rest => (v, { e with touch := rest })
  | [] => (Config.freeTouch e.drawn, { e with drawn := e.drawn + 1 })

/-! ### The transport -/

/-- What the panel sees of a frame: nothing of the DFC's intent when the bus is selected elsewhere (R62, R63;
log entry 9). -/
def Link.kind (c : Cfg) (tx : List Byte) (l : Link) : FrameKind :=
  if l.bus = .display then frameKind c tx else .alien

/-- The bytes received during a frame (R62, R73, R75): as many as are sent. -/
def Link.answer (c : Cfg) (tx : List Byte) (l : Link) : List Byte × Env :=
  match l.kind c tx with
  | .read =>
    let d := l.env.drawBytes 2
    let r := match l.panel.readValue with
      | some v => (v, d.2)
      | none => d.2.drawRead
    (d.1 ++ [hiByte r.1, loByte r.1], r.2)
  | _ => l.env.drawBytes tx.length

/-- `Frame(tx) -> rx` (R62): one exchange, one `Xchg` event. -/
def Link.frame (c : Cfg) (tx : List Byte) (l : Link) : List Byte × Link :=
  let rx := l.answer c tx
  (rx.1, { l with trace := .xchg tx rx.1 :: l.trace, panel := l.panel.receive c (l.kind c tx), env := rx.2 })

/-- `TpReady()` (R64): one poll, one `GpioRead` event. -/
def Link.tpReady (l : Link) : Level × Link :=
  let d := l.env.drawReady
  (d.1, { l with trace := .gpioRead d.1 :: l.trace, env := d.2 })

/-- The bus switched to a sub-device (R63, R65). -/
def Link.select (d : SubDevice) (l : Link) : Link := { l with bus := d }

/-- `TouchRead(ch)` (R65): switch to the touch controller, one `TouchXchg` event, back to the display. -/
def Link.touchRead (ch : Channel) (l : Link) : Word × Link :=
  let t := l.select .touch
  let d := t.env.drawTouch
  (d.1, ({ t with trace := .touchXchg ch d.1 :: t.trace, env := d.2 } : Link).select .display)

/-! ### Frame-level operations -/

/-- `WriteIndex(a)` (R121), frame WI (R107). -/
def Link.writeIndex (c : Cfg) (a : Byte) (l : Link) : Link := (l.frame c [sbWI c, 0x00, a]).2

/-- `WriteData(v)` (R122), frame WD (R108). -/
def Link.writeData (c : Cfg) (v : Word) (l : Link) : Link := (l.frame c [sbWD c, hiByte v, loByte v]).2

/-- `ReadData()` (R123), frame RD (R109): the value is `rx[2] ++ rx[3]`. -/
def Link.readData (c : Cfg) (l : Link) : Word × Link :=
  let r := l.frame c [sbRD c, 0x00, 0x00, 0x00]
  (joinBytes (r.1.getD 2 0) (r.1.getD 3 0), r.2)

/-- `MemWrite(a, 2, v)` (R124). -/
def Link.memWrite (c : Cfg) (a : Byte) (v : Word) (l : Link) : Link := (l.writeIndex c a).writeData c v

/-- `MemRead(a, 2)` (R125). -/
def Link.memRead (c : Cfg) (a : Byte) (l : Link) : Word × Link := (l.writeIndex c a).readData c

/-! ### Cursor and pixels -/

/-- `SetCursor(x, y)` (R140): two register writes, X first. -/
def Link.setCursor (c : Cfg) (x y : Word) (l : Link) : Link := (l.memWrite c 0x20 x).memWrite c 0x21 y

/-- A call of `Plot`: the coordinates are numbers of `Z` (R142, R160). -/
structure Dot where
  x : Int
  y : Int
  c : Word
  deriving DecidableEq, Repr

/-- The bounds check of `Plot` (R142). -/
def Dot.inside (g : Geom) (d : Dot) : Bool :=
  0 ≤ d.x && d.x < (g.w : Int) && 0 ≤ d.y && d.y < (g.h : Int)

/-- `Plot(px, py, c)` in the area `g` (R142): outside the area, nothing at all. -/
def Link.plot (c : Cfg) (g : Geom) (d : Dot) (l : Link) : Link :=
  if d.inside g then (l.setCursor c (u16 d.x) (u16 d.y)).memWrite c 0x22 d.c else l

/-- The calls of `Plot` of a command, in order, each performed (R168). -/
def Link.plotAll (c : Cfg) (g : Geom) (ds : List Dot) (l : Link) : Link :=
  ds.foldl (fun l d => l.plot c g d) l

/-- `n` further data writes of one colour, with no cursor or index frame between (R147). -/
def Link.stream (c : Cfg) (v : Word) : Nat → Link → Link
  | 0, l => l
  | n + 1, l => Link.stream c v n (l.writeData c v)

/-- `ReadPixel(x, y)` (R143): the index frame once, a discarded read, the real read, the conversion. -/
def Link.readPixel (c : Cfg) (x y : Word) (l : Link) : Word × Link :=
  let discarded := ((l.setCursor c x y).writeIndex c 0x22).readData c
  let real := discarded.2.readData c
  (swapRB real.1, real.2)

/-- The addressable area `(W, H)` (R27). -/
def State.area (s : State) : Geom := dims s.cfg s.regs.orient

/-- The dots plotted in the addressable area. -/
def State.draw (s : State) (ds : List Dot) : State := s.setLink (s.link.plotAll s.cfg s.area ds)

/-! ### The life of a command -/

/-- How a command's pseudocode ends: at its end, or at a `raise Err` (R240, R241). -/
inductive Ended where
  | ok (s : State)
  | raised (e : ErrCode) (s : State)

/-- The common start of every command (R240): BUSY <- 1, ERR <- 0, ERR_CODE <- 0. This is also what clears the
report of an earlier error; there is no return instruction (R249). -/
def beginCommand (s : State) : State := s.setRegs { s.regs with busy := true, err := false, errCode := 0 }

/-- The common end of every command (R240): BUSY <- 0. -/
def endCommand (s : State) : State := s.setRegs { s.regs with busy := false }

/-- `raise Err(code)` (R241): ERR <- 1, ERR_CODE <- code, BUSY <- 0; no context is saved, control goes nowhere
(R248). -/
def raiseErr (e : ErrCode) (s : State) : State :=
  s.setRegs { s.regs with err := true, errCode := e.code, busy := false }

/-- A command from its start to its end (R240). -/
def command (body : State → Ended) (s : State) : State :=
  match body (beginCommand s) with
  | .ok t => endCommand t
  | .raised e t => raiseErr e t

/-- The orientation gate (R141): NOT_INIT before any event unless ORIENT_VALID. -/
def gated (body : State → State) (s : State) : Ended :=
  if s.regs.orientValid then .ok (body s) else .raised .notInit s

/-- A command word that is no command (R101, R243). -/
def illegalCommand (s : State) : State := command (fun t => .raised .illegalCmd t) s

end Sys2Proof.Machine
end

