-- ==== Sys2Proof/Machine/Calibration.lean ====
section
/-! DEFINITION. The calibration commands (45_calibration.md R220 to R227). Coefficients and quotients are
computed in `Z`; the 64-bit registers hold them exactly (R224). -/

namespace Sys2Proof.Machine

/-- The divider (R221): the determinant of the screen-point basis. -/
def calDivider (xs0 ys0 xs1 ys1 xs2 ys2 : Int) : Int :=
  (xs0 - xs2) * (ys1 - ys2) - (xs1 - xs2) * (ys0 - ys2)

/-- `An` (R222), and `Dn` with the display ordinates in place of the abscissas `p0`, `p1`, `p2`. -/
def calA (p0 p1 p2 ys0 ys1 ys2 : Int) : Int :=
  (p0 - p2) * (ys1 - ys2) - (p1 - p2) * (ys0 - ys2)

/-- `Bn` (R222), and `En`. -/
def calB (p0 p1 p2 xs0 xs1 xs2 : Int) : Int :=
  (xs0 - xs2) * (p1 - p2) - (p0 - p2) * (xs1 - xs2)

/-- `Cn` (R222), and `Fn`. -/
def calC (p0 p1 p2 xs0 ys0 xs1 ys1 xs2 ys2 : Int) : Int :=
  (xs2 * p1 - xs1 * p2) * ys0 + (xs0 * p2 - xs2 * p0) * ys1 + (xs1 * p0 - xs0 * p1) * ys2

/-- The divider of the operands (R221, R225). -/
def Regs.solveDivider (r : Regs) : Int :=
  calDivider (r.xInt 6) (r.xInt 7) (r.xInt 8) (r.xInt 9) (r.xInt 10) (r.xInt 11)

/-- A number as a matrix register holds it (R31; exact in the range of R224). -/
def i64 (v : Int) : Quad := BitVec.ofInt 64 v

/-- The seven registers written by a successful CAL_SOLVE (R222, R225). -/
def solvedRegs (r : Regs) : Regs :=
  { r with
    divider := i64 r.solveDivider
    an := i64 (calA (r.xInt 0) (r.xInt 2) (r.xInt 4) (r.xInt 7) (r.xInt 9) (r.xInt 11))
    bn := i64 (calB (r.xInt 0) (r.xInt 2) (r.xInt 4) (r.xInt 6) (r.xInt 8) (r.xInt 10))
    cn := i64 (calC (r.xInt 0) (r.xInt 2) (r.xInt 4) (r.xInt 6) (r.xInt 7) (r.xInt 8) (r.xInt 9) (r.xInt 10) (r.xInt 11))
    dn := i64 (calA (r.xInt 1) (r.xInt 3) (r.xInt 5) (r.xInt 7) (r.xInt 9) (r.xInt 11))
    en := i64 (calB (r.xInt 1) (r.xInt 3) (r.xInt 5) (r.xInt 6) (r.xInt 8) (r.xInt 10))
    fn := i64 (calC (r.xInt 1) (r.xInt 3) (r.xInt 5) (r.xInt 6) (r.xInt 7) (r.xInt 8) (r.xInt 9) (r.xInt 10) (r.xInt 11)) }

/-- CAL_SOLVE (R225): a zero divider is stored, and the coefficients keep their contents. -/
def calSolveBody (s : State) : Ended :=
  if s.regs.solveDivider = 0 then
    .raised .degenerateCalibration (s.setRegs { s.regs with divider := 0 })
  else .ok (s.setRegs (solvedRegs s.regs))

def execCalSolve (s : State) : Host.Outcome State Fault Refusal := .next (command calSolveBody s)

/-- A quotient as a coordinate, if it fits 0..65535 (R223). -/
def fitsWord (q : Int) : Bool := 0 ≤ q && q ≤ 65535

/-- The numerator `A·xs + B·ys + C` (R223). -/
def numerator (a b c : Quad) (xs ys : Word) : Int :=
  a.toInt * (xs.toNat : Int) + b.toInt * (ys.toNat : Int) + c.toInt

/-- The abscissa's quotient, truncated toward zero (R11, R223). -/
def Regs.quotX (r : Regs) (xs ys : Word) : Int := Int.tdiv (numerator r.an r.bn r.cn xs ys) r.divider.toInt

/-- The ordinate's quotient, truncated toward zero (R11, R223). -/
def Regs.quotY (r : Regs) (xs ys : Word) : Int := Int.tdiv (numerator r.dn r.en r.fn xs ys) r.divider.toInt

/-- `Apply(xs, ys)` (R223): the point, or the error it raises. -/
def applyMatrix (r : Regs) (xs ys : Word) : Except ErrCode (Word × Word) :=
  if r.divider = 0 then .error .degenerateCalibration
  else if fitsWord (r.quotX xs ys) && fitsWord (r.quotY xs ys) then
    .ok (u16 (r.quotX xs ys), u16 (r.quotY xs ys))
  else .error .resultRange

/-- STATUS.DISP_VALID <- 0. -/
def clearDispValid (s : State) : State := s.setRegs { s.regs with dispValid := false }

/-- The result of an apply: RES0, RES1, DISP_X, DISP_Y, DISP_VALID (R226, R227), or the error. -/
def storePoint (s : State) (r : Except ErrCode (Word × Word)) : Ended :=
  match r with
  | .error e => .raised e s
  | .ok q =>
    .ok (s.setRegs { s.regs with res0 := q.1, res1 := q.2, dispX := q.1, dispY := q.2, dispValid := true })

/-- CAL_APPLY (R226). -/
def calApplyBody (s : State) : Ended :=
  storePoint (clearDispValid s) (applyMatrix s.regs (s.regs.x 0) (s.regs.x 1))

def execCalApply (s : State) : Host.Outcome State Fault Refusal := .next (command calApplyBody s)

/-- CAL_APPLY_RAW (R227): NO_RAW_POINT first. -/
def calApplyRawBody (s : State) : Ended :=
  if s.regs.rawValid then storePoint (clearDispValid s) (applyMatrix s.regs s.regs.rawX s.regs.rawY)
  else .raised .noRawPoint (clearDispValid s)

def execCalApplyRaw (s : State) : Host.Outcome State Fault Refusal := .next (command calApplyRawBody s)

end Sys2Proof.Machine
end

