-- ==== Sys2Proof/Machine/Protocol.lean ====
section
/-! DEFINITION. The register protocol commands (40_register_protocol.md R120 to R126). -/

namespace Sys2Proof.Machine

/-- NOP (R120): nothing beyond the common start and end. -/
def execNop (s : State) : Host.Outcome State Fault Refusal := .next (command .ok s)

/-- WRITE_INDEX (R121). -/
def writeIndexBody (s : State) : Ended := .ok (s.setLink (s.link.writeIndex s.cfg (s.regs.xLow 0)))

def execWriteIndex (s : State) : Host.Outcome State Fault Refusal := .next (command writeIndexBody s)

/-- WRITE_DATA (R122). -/
def writeDataBody (s : State) : Ended := .ok (s.setLink (s.link.writeData s.cfg (s.regs.x 0)))

def execWriteData (s : State) : Host.Outcome State Fault Refusal := .next (command writeDataBody s)

/-- `res[0] <- v` with the transport side after the read (R23). -/
def storeRes0 (s : State) (r : Word × Link) : State :=
  (s.setLink r.2).setRegs { s.regs with res0 := r.1 }

/-- READ_DATA (R123): the raw value, no conversion. -/
def readDataBody (s : State) : Ended := .ok (storeRes0 s (s.link.readData s.cfg))

def execReadData (s : State) : Host.Outcome State Fault Refusal := .next (command readDataBody s)

/-- WRITE_REG (R124). -/
def writeRegBody (s : State) : Ended :=
  .ok (s.setLink (s.link.memWrite s.cfg (s.regs.xLow 0) (s.regs.x 1)))

def execWriteReg (s : State) : Host.Outcome State Fault Refusal := .next (command writeRegBody s)

/-- READ_REG (R125). -/
def readRegBody (s : State) : Ended := .ok (storeRes0 s (s.link.memRead s.cfg (s.regs.xLow 0)))

def execReadReg (s : State) : Host.Outcome State Fault Refusal := .next (command readRegBody s)

end Sys2Proof.Machine
end

