-- ==== Sys2Proof/Machine/Display.lean ====
section
/-! DEFINITION. The display surface commands (41_display_surface.md R140 to R148). -/

namespace Sys2Proof.Machine

/-- SET_CURSOR (R140): no gate, no check, no mapping. -/
def setCursorBody (s : State) : Ended :=
  .ok (s.setLink (s.link.setCursor s.cfg (s.regs.x 0) (s.regs.x 1)))

def execSetCursor (s : State) : Host.Outcome State Fault Refusal := .next (command setCursorBody s)

/-- The one call of `Plot` of SET_POINT (R145). -/
def pointDots (r : Regs) : List Dot := [{ x := r.xInt 0, y := r.xInt 1, c := r.x 2 }]

/-- SET_POINT (R145). -/
def setPointBody (s : State) : Ended := gated (fun t => t.draw (pointDots t.regs)) s

def execSetPoint (s : State) : Host.Outcome State Fault Refusal := .next (command setPointBody s)

/-- GET_POINT (R146): no gate, no bounds check. -/
def getPointBody (s : State) : Ended := .ok (storeRes0 s (s.link.readPixel s.cfg (s.regs.x 0) (s.regs.x 1)))

def execGetPoint (s : State) : Host.Outcome State Fault Refusal := .next (command getPointBody s)

/-- The frames of CLEAR (R147): `Plot(0, 0, c)`, then `W·H − 1` data writes. -/
def Link.clear (c : Cfg) (g : Geom) (v : Word) (l : Link) : Link :=
  (l.plot c g { x := 0, y := 0, c := v }).stream c v (g.w * g.h - 1)

/-- CLEAR (R147). -/
def clearBody (s : State) : Ended :=
  gated (fun t => t.setLink (t.link.clear t.cfg t.area (t.regs.x 0))) s

def execClear (s : State) : Host.Outcome State Fault Refusal := .next (command clearBody s)

/-- SET_ORIENT (R148): BAD_ORIENT above 1, otherwise the orientation and the scan-direction register. -/
def setOrientBody (s : State) : Ended :=
  match orientOperand (s.regs.x 0) with
  | none => .raised .badOrient s
  | some o =>
    .ok ((s.setRegs { s.regs with orient := o, orientValid := true }).setLink
      (s.link.memWrite s.cfg (scanReg s.cfg) (scanValue s.cfg o)))

def execSetOrient (s : State) : Host.Outcome State Fault Refusal := .next (command setOrientBody s)

end Sys2Proof.Machine
end

