-- ==== Sys2Proof/Machine/Raster.lean ====
section
/-! DEFINITION. The rasterizer commands (42_rasterizer.md R160 to R169). Each primitive is the list of its calls
of `Plot` in order; all arithmetic is in `Z` (R160), with natural numbers where no value can be negative. -/

namespace Sys2Proof.Machine

/-- A point before its colour is known. -/
abbrev Point := Int × Int

/-- The dots of a list of points in one colour. -/
def paint (c : Word) (ps : List Point) : List Dot := ps.map fun p => { x := p.1, y := p.2, c := c }

/-- The steps of a line after its starting point (R161), in driving and minor coordinates: `n` steps left, the
error `e`, the absolute deltas `big` (driving) and `small`, the signs, the current position. -/
def lineSteps (big small : Nat) (sb ss : Int) : Nat → Nat → Int → Int → List Point
  | 0, _, _, _ => []
  | n + 1, e, b, m =>
    let m' := if e + small ≥ big then m + ss else m
    let e' := if e + small ≥ big then e + small - big else e + small
    (b + sb, m') :: lineSteps big small sb ss n e' (b + sb) m'

/-- The points of `Line(x0, y0, x1, y1, ·)` in order (R161); the error starts at the driving delta `div 2`, and
on a tie x drives. -/
def linePoints (x0 y0 x1 y1 : Int) : List Point :=
  let adx := (x1 - x0).natAbs
  let ady := (y1 - y0).natAbs
  let sx := Int.sign (x1 - x0)
  let sy := Int.sign (y1 - y0)
  (x0, y0) ::
    if adx ≥ ady then lineSteps adx ady sx sy adx (adx / 2) x0 y0
    else (lineSteps ady adx sy sx ady (ady / 2) y0 x0).map Prod.swap

/-- `Line(x0, y0, x1, y1, c)` (R161). -/
def lineDots (x0 y0 x1 y1 : Int) (c : Word) : List Dot := paint c (linePoints x0 y0 x1 y1)

/-- LINE (R161). -/
def lineBody (s : State) : Ended :=
  gated (fun t => t.draw
    (lineDots (t.regs.xInt 0) (t.regs.xInt 1) (t.regs.xInt 2) (t.regs.xInt 3) (t.regs.x 4))) s

def execLine (s : State) : Host.Outcome State Fault Refusal := .next (command lineBody s)

/-- `BoxEdges` (R163): the edges at y0, y1, x0, x1. -/
def boxEdges (x0 y0 x1 y1 : Int) (b : Word) : List Dot :=
  lineDots x0 y0 x1 y0 b ++ lineDots x0 y1 x1 y1 b ++ lineDots x0 y0 x0 y1 b ++ lineDots x1 y0 x1 y1 b

/-- BOX (R163). -/
def boxBody (s : State) : Ended :=
  gated (fun t => t.draw
    (boxEdges (t.regs.xInt 0) (t.regs.xInt 1) (t.regs.xInt 2) (t.regs.xInt 3) (t.regs.x 4))) s

def execBox (s : State) : Host.Outcome State Fault Refusal := .next (command boxBody s)

/-- The `n` integers from `a` upward. -/
def ascending (a : Int) (n : Nat) : List Int := (List.range n).map fun k : Nat => a + (k : Int)

/-- The interior rows of BOX_FILL (R164), one `Line` each, from the first interior row to the last. -/
def boxInterior (x0 y0 x1 y1 : Int) (f : Word) : List Dot :=
  let xa := min x0 x1
  let xb := max x0 x1
  let ya := min y0 y1
  let yb := max y0 y1
  if xb - xa ≥ 2 ∧ yb - ya ≥ 2 then
    (ascending (ya + 1) (yb - ya - 1).toNat).flatMap fun y => lineDots (xa + 1) y (xb - 1) y f
  else []

/-- BOX_FILL (R164): the border first, then the interior. -/
def boxFillBody (s : State) : Ended :=
  gated (fun t => t.draw
    (boxEdges (t.regs.xInt 0) (t.regs.xInt 1) (t.regs.xInt 2) (t.regs.xInt 3) (t.regs.x 4) ++
      boxInterior (t.regs.xInt 0) (t.regs.xInt 1) (t.regs.xInt 2) (t.regs.xInt 3) (t.regs.x 5))) s

def execBoxFill (s : State) : Host.Outcome State Fault Refusal := .next (command boxFillBody s)

/-- The octant walk of the circle (R165): while `x ≤ y`, with at most `n` iterations. -/
def octantWalk : Nat → Int → Int → Int → List Point
  | 0, _, _, _ => []
  | n + 1, x, y, d =>
    if x ≤ y then
      (x, y) ::
        (if d < 0 then octantWalk n (x + 1) y (d + 2 * x + 3)
         else octantWalk n (x + 1) (y - 1) (d + 2 * (x - y) + 5))
    else []

/-- The octant points of radius `r` (R165): the walk starts at (0, r) with `d = 1 − r`, and `r + 1` iterations
are as many as it can make. -/
def octant (r : Nat) : List Point := octantWalk (r + 1) 0 r (1 - r)

/-- The eight mirrored points of one octant point, in the order of R165. -/
def mirrored (cx cy : Int) (p : Point) : List Point :=
  [(cx + p.1, cy + p.2), (cx - p.1, cy + p.2), (cx + p.1, cy - p.2), (cx - p.1, cy - p.2),
   (cx + p.2, cy + p.1), (cx - p.2, cy + p.1), (cx + p.2, cy - p.1), (cx - p.2, cy - p.1)]

/-- The points of `CircleOutline(cx, cy, r, ·)` (R165). -/
def circlePoints (cx cy : Int) (r : Nat) : List Point := (octant r).flatMap (mirrored cx cy)

/-- `CircleOutline(cx, cy, r, c)` (R165). -/
def circleDots (cx cy : Int) (r : Nat) (c : Word) : List Dot := paint c (circlePoints cx cy r)

/-- CIRCLE (R166). -/
def circleBody (s : State) : Ended :=
  gated (fun t => t.draw (circleDots (t.regs.xInt 0) (t.regs.xInt 1) (t.regs.x 2).toNat (t.regs.x 3))) s

def execCircle (s : State) : Host.Outcome State Fault Refusal := .next (command circleBody s)

/-- The scan of CIRCLE_FILL (R167): `dy` outer, `dx` inner, both from `−r` to `r − 1`. -/
def diskPoints (cx cy : Int) (r : Nat) : List Point :=
  (ascending (-r) (2 * r)).flatMap fun dy =>
    ((ascending (-r) (2 * r)).filter fun dx => dx * dx + dy * dy ≤ (r : Int) * r).map fun dx => (cx + dx, cy + dy)

/-- The plots of CIRCLE_FILL (R167): the disk in the fill colour, then the outline if the colours differ. -/
def circleFillDots (cx cy : Int) (r : Nat) (border fill : Word) : List Dot :=
  paint fill (diskPoints cx cy r) ++ if border ≠ fill then circleDots cx cy r border else []

/-- CIRCLE_FILL (R167). -/
def circleFillBody (s : State) : Ended :=
  gated (fun t => t.draw
    (circleFillDots (t.regs.xInt 0) (t.regs.xInt 1) (t.regs.x 2).toNat (t.regs.x 3) (t.regs.x 4))) s

def execCircleFill (s : State) : Host.Outcome State Fault Refusal := .next (command circleFillBody s)

end Sys2Proof.Machine
end

