-- ==== Sys2Proof/Machine/Text.lean ====
section
/-! DEFINITION. The text blit command (43_text_blit.md R190, R191). -/

namespace Sys2Proof.Machine

/-- Where the cell (row, col) of a character goes (R191): as it is in portrait, axes swapped and one inverted
in landscape. -/
def charCell (o : Orient) (x y : Int) (row col : Nat) : Point :=
  match o with
  | .portrait => (x + col, y + row)
  | .landscape => (y - row, x + col)

/-- The 128 plots of a character, rows outer, columns inner (R191); bit 7 of a row is column 0 (R190). -/
def charDots (c : Cfg) (o : Orient) (x y : Int) (ch : Byte) (fg bg : Word) : List Dot :=
  (List.range 16).flatMap fun row =>
    (List.range 8).map fun col =>
      let p := charCell o x y row col
      { x := p.1, y := p.2, c := if (glyphRow c ch row).getLsbD (7 - col) then fg else bg }

/-- PUT_CHAR (R191). -/
def putCharBody (s : State) : Ended :=
  gated (fun t => t.draw
    (charDots t.cfg t.regs.orient (t.regs.xInt 0) (t.regs.xInt 1) (t.regs.xLow 2) (t.regs.x 3) (t.regs.x 4))) s

def execPutChar (s : State) : Host.Outcome State Fault Refusal := .next (command putCharBody s)

end Sys2Proof.Machine
end

