-- ==== Sys2Proof/Machine/Touch.lean ====
section
/-! DEFINITION. The touch commands (44_touch_filter.md R200 to R207). -/

namespace Sys2Proof.Machine

/-- One pair of samples: X first, then Y, stored at index `n` (R201). -/
def samplePair (n : Nat) (s : State) : State :=
  let x := s.link.touchRead .x
  let y := x.2.touchRead .y
  (s.setLink y.2).setRegs
    { s.regs with swx := s.regs.swx.setIfInBounds n x.1, swy := s.regs.swy.setIfInBounds n y.1 }

/-- The Armed state (R201): `room` samples still fit, `n` are collected. The count is tested before the poll. -/
def acquireLoop : (room n : Nat) → State → Nat × State
  | 0, n, s => (n, s)
  | room + 1, n, s =>
    let poll := s.link.tpReady
    match poll.1 with
    | .deasserted => (n, s.setLink poll.2)
    | .asserted => acquireLoop room (n + 1) (samplePair n (s.setLink poll.2))

/-- `Acquire()` (R201): the loop, then SW_COUNT. -/
def acquire (s : State) : Nat × State :=
  let r := acquireLoop 9 0 s
  (r.1, r.2.setRegs { r.2.regs with swCount := BitVec.ofNat 4 r.1 })

/-- The average of one group of three samples, the floor of the exact quotient (R202). -/
def groupAverage (a b c : Word) : Nat := (a.toNat + b.toNat + c.toNat) / 3

/-- An absolute difference (R203). -/
def absDiff (a b : Nat) : Nat := ((a : Int) - (b : Int)).natAbs

/-- The selection among three group averages (R204). -/
def selectAverage (a0 a1 a2 : Nat) : Nat :=
  let m0 := absDiff a0 a1
  let m1 := absDiff a1 a2
  let m2 := absDiff a2 a0
  if m0 < m1 then
    if m2 < m0 then (a0 + a2) / 2 else (a0 + a1) / 2
  else
    if m2 < m1 then (a0 + a2) / 2 else (a1 + a2) / 2

/-- All three differences exceed the threshold, strictly (R203). -/
def noisy (threshold : Word) (a0 a1 a2 : Nat) : Bool :=
  threshold.toNat < absDiff a0 a1 && threshold.toNat < absDiff a1 a2 && threshold.toNat < absDiff a2 a0

/-- `FilterAxis(s)` (R205): `none` is `reject`. -/
def filterAxis (threshold : Word) (v : Vector Word 9) : Option Word :=
  let a0 := groupAverage v[0] v[1] v[2]
  let a1 := groupAverage v[3] v[4] v[5]
  let a2 := groupAverage v[6] v[7] v[8]
  if noisy threshold a0 a1 a2 then none else some (BitVec.ofNat 16 (selectAverage a0 a1 a2))

/-- `Filter()` (R205): X first, then Y; a success stores both. -/
def runFilter (s : State) : Ended :=
  match filterAxis s.cfg.threshold s.regs.swx with
  | none => .raised .noisyTouchSample s
  | some rx =>
    match filterAxis s.cfg.threshold s.regs.swy with
    | none => .raised .noisyTouchSample s
    | some ry => .ok (s.setRegs { s.regs with rawX := rx, rawY := ry, rawValid := true })

/-- STATUS.RAW_VALID <- 0. -/
def clearRawValid (s : State) : State := s.setRegs { s.regs with rawValid := false }

/-- TOUCH_ACQUIRE (R206). -/
def touchAcquireBody (s : State) : Ended :=
  let r := acquire (clearRawValid s)
  if r.1 < 9 then .raised .incompleteTouchGesture r.2 else runFilter r.2

def execTouchAcquire (s : State) : Host.Outcome State Fault Refusal := .next (command touchAcquireBody s)

/-- TOUCH_FILTER (R207): the filter alone, on the window as it stands. -/
def touchFilterBody (s : State) : Ended :=
  if s.regs.swCount ≠ 9 then .raised .incompleteTouchGesture (clearRawValid s)
  else runFilter (clearRawValid s)

def execTouchFilter (s : State) : Host.Outcome State Fault Refusal := .next (command touchFilterBody s)

end Sys2Proof.Machine
end

