-- ==== Sys2Proof/Machine/Dispatch.lean ====
section
/-! DEFINITION. One arm per command: the meaning of each. -/

namespace Sys2Proof.Machine

def exec (i : Instr) (s : State) : Host.Outcome State Fault Refusal :=
  match i with
  | .nop => Sys2Proof.Machine.execNop s
  | .writeIndex => Sys2Proof.Machine.execWriteIndex s
  | .writeData => Sys2Proof.Machine.execWriteData s
  | .readData => Sys2Proof.Machine.execReadData s
  | .writeReg => Sys2Proof.Machine.execWriteReg s
  | .readReg => Sys2Proof.Machine.execReadReg s
  | .setCursor => Sys2Proof.Machine.execSetCursor s
  | .setPoint => Sys2Proof.Machine.execSetPoint s
  | .getPoint => Sys2Proof.Machine.execGetPoint s
  | .clear => Sys2Proof.Machine.execClear s
  | .setOrient => Sys2Proof.Machine.execSetOrient s
  | .line => Sys2Proof.Machine.execLine s
  | .box => Sys2Proof.Machine.execBox s
  | .boxFill => Sys2Proof.Machine.execBoxFill s
  | .circle => Sys2Proof.Machine.execCircle s
  | .circleFill => Sys2Proof.Machine.execCircleFill s
  | .putChar => Sys2Proof.Machine.execPutChar s
  | .touchAcquire => Sys2Proof.Machine.execTouchAcquire s
  | .touchFilter => Sys2Proof.Machine.execTouchFilter s
  | .calSolve => Sys2Proof.Machine.execCalSolve s
  | .calApply => Sys2Proof.Machine.execCalApply s
  | .calApplyRaw => Sys2Proof.Machine.execCalApplyRaw s

end Sys2Proof.Machine
end

