-- ==== Sys2Proof/Machine/HostPort.lean ====
section
/-! DEFINITION. The host port (10_state.md R20 to R31): reading and writing registers by index, starting a
command by writing CMD, and the reset of the DFC (70_reset_and_hazards.md R270, R271). -/

namespace Sys2Proof.Machine

/-- The index of CMD (R20). -/
def cmdIndex : BitVec 7 := 0x10

/-- The index of STATUS (R20). -/
def statusIndex : BitVec 7 := 0x11

/-- A host write of a register that is not CMD (R20, R21, R30): only ARG0..ARG11, SWX0..SWX8, SWY0..SWY8 and
SW_COUNT (bits 3:0) are writable; any other write is ignored. -/
def writeReg (i : BitVec 7) (v : Word) (r : Regs) : Regs :=
  let n := i.toNat
  if n < 0x0C then { r with arg := r.arg.setIfInBounds n v }
  else if 0x20 ≤ n ∧ n < 0x29 then { r with swx := r.swx.setIfInBounds (n - 0x20) v }
  else if 0x30 ≤ n ∧ n < 0x39 then { r with swy := r.swy.setIfInBounds (n - 0x30) v }
  else if n = 0x39 then { r with swCount := v.extractLsb' 0 4 }
  else r

/-- A host read of a register that is not STATUS (R20 to R31): CMD and every index without a register read 0. -/
def readReg (i : BitVec 7) (r : Regs) : HostVal :=
  let n := i.toNat
  if n < 0x0C then .half (r.arg.toList.getD n 0)
  else if 0x20 ≤ n ∧ n < 0x29 then .half (r.swx.toList.getD (n - 0x20) 0)
  else if 0x30 ≤ n ∧ n < 0x39 then .half (r.swy.toList.getD (n - 0x30) 0)
  else if n = 0x12 then .half (r.errCode.zeroExtend 16)
  else if n = 0x13 then .half r.res0
  else if n = 0x14 then .half r.res1
  else if n = 0x18 then .half (orientCode r.orient)
  else if n = 0x19 then .half r.rawX
  else if n = 0x1A then .half r.rawY
  else if n = 0x1B then .half r.dispX
  else if n = 0x1C then .half r.dispY
  else if n = 0x39 then .half (r.swCount.zeroExtend 16)
  else if n = 0x40 then .quad r.an
  else if n = 0x41 then .quad r.bn
  else if n = 0x42 then .quad r.cn
  else if n = 0x43 then .quad r.dn
  else if n = 0x44 then .quad r.en
  else if n = 0x45 then .quad r.fn
  else if n = 0x46 then .quad r.divider
  else .half 0

/-- Which indices are 64 bits wide (R20). -/
def isQuadIndex (i : BitVec 7) : Bool := 0x40 ≤ i.toNat && i.toNat ≤ 0x46

/-- A value R240 leaves unspecified, with the transport side after it. DESIGN CHOICE (log entry 3): every read draws
a free value of its own, as the counter advances, so that nothing relates two reads; R240 does not say whether two
reads have one value. -/
def Link.unspecified (l : Link) : Quad × Link :=
  (Config.freeHost l.env.drawn, { l with env := { l.env with drawn := l.env.drawn + 1 } })

/-- A host read of STATUS (R24): one poll of the touch-ready line. While BUSY only bit 0 is specified (R240), and the
other bits are those of a free value this read alone draws (DESIGN CHOICE, log entry 3). -/
def readStatus (s : State) : State :=
  let poll := s.link.tpReady
  if s.regs.busy then
    let v := poll.2.unspecified
    { s with link := v.2, reply := some (.half (v.1.extractLsb' 0 16 ||| 1)) }
  else { s with link := poll.2, reply := some (.half (statusWord s.regs poll.1)) }

/-- A host read of another register while BUSY: an unspecified value of the register's width (R240), which this read
alone draws (DESIGN CHOICE, log entry 3). -/
def readBusy (i : BitVec 7) (s : State) : State :=
  let v := s.link.unspecified
  { s with link := v.2, reply := some (if isQuadIndex i then .quad v.1 else .half (v.1.extractLsb' 0 16)) }

/-- A host read (R20, R24, R240). -/
def hostRead (i : BitVec 7) (s : State) : State :=
  if i = statusIndex then readStatus s
  else if s.regs.busy then readBusy i s
  else { s with reply := some (readReg i s.regs) }

/-- The command a word starts (R22, R101). -/
def issue (w : Word) (s : State) : Host.Outcome State Fault Refusal :=
  match decode w with
  | .ok i => exec i s
  | .error _ => .next (illegalCommand s)

/-- A host write (R20 to R22): ignored while BUSY; a write of CMD runs a command; others store or are ignored. -/
def hostWrite (i : BitVec 7) (v : Word) (s : State) : Host.Outcome State Fault Refusal :=
  if s.regs.busy then .next s
  else if i = cmdIndex then issue v s
  else .next (s.setRegs (writeReg i v s.regs))

/-- Reset of the DFC (R33, R270, R271): the register file and the event list; the panel, the bus selection and
the environment stay as they are (log entry 18). -/
def resetDfc (s : State) : State :=
  { s with regs := Regs.reset, link := { s.link with trace := [] } }

/-- One access of the host. -/
def hostAccess (a : HostAccess) (s : State) : Host.Outcome State Fault Refusal :=
  match a with
  | .write i v => hostWrite i v s
  | .read i => .next (hostRead i s)
  | .reset => .next (resetDfc s)

/-- The host access that starts the command whose word is `w`: the DFC's next instruction (R22, R26). -/
def commandAccess (nbits w : Nat) : HostAccess := .write cmdIndex (BitVec.ofNat 16 (w % 2 ^ nbits))

end Sys2Proof.Machine
end

