-- ==== Sys2Proof/Machine/Step.lean ====
section
/-! DEFINITION. One step: the host's next access (10_state.md R22, R26). With none pending the DFC waits
(70_reset_and_hazards.md R271). -/

namespace Sys2Proof.Machine

/-- One step of the machine (log entry 2). -/
def step (s : State) : Host.Outcome State Fault Refusal :=
  match s.host with
  | [] => .next s
  | a :: rest => hostAccess a { s with host := rest }

/-- `s` with the command word `w` as what the host does next. The DFC takes it only while it is not busy. -/
def State.withFetchWord (s : State) (nbits w : Nat) : State :=
  { s with host := commandAccess nbits w :: s.host, regs := { s.regs with busy := false } }

end Sys2Proof.Machine
end

