-- ==== Sys2Proof/Machine/Sequences.lean ====
section
/-! DEFINITION. Host sequences: a listing line (30_encoding.md R112) and the three pseudo-instructions (R113):
PUT_STRING (43_text_blit.md R193), BOX with NOFILL, CALIBRATE (45_calibration.md R229). They are the host's, on
top of the machine; the waits for BUSY = 0 need no access, since BUSY is 0 between two steps (log entry 22). -/

namespace Sys2Proof.Machine

/-- The accesses of a listing line (R112): the named operands into ARG0 upward, then the command word. -/
def listing (i : Instr) (ops : List Word) : List HostAccess :=
  (ops.mapIdx fun k v => .write (BitVec.ofNat 7 k) v) ++ [.write cmdIndex (encode i)]

/-- `BOX x0, y0, x1, y1, border, NOFILL` and `BOX ... fill` (R113, R162). -/
def boxListing (x0 y0 x1 y1 border : Word) : Option Word → List HostAccess
  | none => listing .box [x0, y0, x1, y1, border]
  | some fill => listing .boxFill [x0, y0, x1, y1, border, fill]

/-- Where the next character goes (R193): the next column, a new line, or back to the origin. -/
def nextCharPos (g : Geom) (x y : Word) : Word × Word :=
  if (x.toNat : Int) < (g.w : Int) - 8 then (x + 8, y)
  else if (y.toNat : Int) < (g.h : Int) - 16 then (0, y + 16)
  else (0, 0)

/-- PUT_STRING (R193): one PUT_CHAR per character code. -/
def putString (g : Geom) (fg bg : Word) : List Word → Word → Word → List HostAccess
  | [], _, _ => []
  | ch :: rest, x, y =>
    listing .putChar [x, y, ch, fg, bg] ++
      putString g fg bg rest (nextCharPos g x y).1 (nextCharPos g x y).2

/-- The state after the host performed one access; every access answers a next state. -/
def performOne (s : State) (a : HostAccess) : State :=
  match hostAccess a s with
  | .next t => t
  | .fault _ => s
  | .refused _ => s

/-- The state after the host performed a list of accesses. -/
def perform (as : List HostAccess) (s : State) : State := as.foldl performOne s

/-- The 16-bit value a host read of an index returns, and the state after the read. -/
def readHalf (i : BitVec 7) (s : State) : Word × State :=
  let t := hostRead i s
  match t.reply with
  | some (.half v) => (v, t)
  | _ => (0, t)

/-- `repeat TOUCH_ACQUIRE until STATUS.RAW_VALID = 1`, at most `tries` times (R229, HZ9), and the cached point. -/
def acquirePoint : (tries : Nat) → State → Option (Word × Word) × State
  | 0, s => (none, s)
  | tries + 1, s =>
    let status := readHalf statusIndex (perform (listing .touchAcquire []) s)
    if status.1.getLsbD 3 then
      let x := readHalf 0x19 status.2
      let y := readHalf 0x1A x.2
      (some (x.1, y.1), y.2)
    else acquirePoint tries status.2

/-- For each target: draw its mark, acquire a raw point (R229). `none` when the host's bound was reached. -/
def acquireAll (tries : Nat) : List (List HostAccess) → State → Option (List Word) × State
  | [], s => (some [], s)
  | mark :: rest, s =>
    match acquirePoint tries (perform mark s) with
    | (none, t) => (none, t)
    | (some p, t) =>
      match acquireAll tries rest t with
      | (none, u) => (none, u)
      | (some ps, u) => (some (p.1 :: p.2 :: ps), u)

/-- CALIBRATE (R229) for three targets, given as `xd0, yd0, xd1, yd1, xd2, yd2`, and their marks; started again
while CAL_SOLVE reports an error, at most `runs` times. True when the matrix was solved. -/
def calibrate (targets : List Word) (marks : List (List HostAccess)) (tries : Nat) : Nat → State → Bool × State
  | 0, s => (false, s)
  | runs + 1, s =>
    match acquireAll tries marks s with
    | (none, t) => (false, t)
    | (some points, t) =>
      let status := readHalf statusIndex (perform (listing .calSolve (targets ++ points)) t)
      if status.1.getLsbD 1 then calibrate targets marks tries runs status.2 else (true, status.2)

end Sys2Proof.Machine
end

