-- ==== Sys2Proof/Safety.lean ====
section
/-! DEFINITION. The terms claims are made in: the register file after a command, the frames a command emits, the
premises of claims about pixels (20_memory.md R63, R76), and the invariant of the machine. -/

namespace Sys2Proof.Machine

/-- The register file after a command that ended normally and wrote no register of its own (60_exceptions.md R240). -/
def clearedRegs (r : Regs) : Regs := { r with busy := false, err := false, errCode := 0 }

/-- The register file after a command that raised an error and wrote no register of its own (R241). -/
def failedRegs (e : ErrCode) (r : Regs) : Regs := { r with busy := false, err := true, errCode := e.code }

/-- The transmitted bytes of a frame event (R61). -/
def Event.sent : Event → Option (List Byte)
  | .xchg tx _ => some tx
  | .gpioRead _ => none
  | .touchXchg _ _ => none

/-- From `s` to `t` the event list grew by exactly one `Xchg` event for each of these frames, in this order. -/
def Emits (s t : State) (txs : List (List Byte)) : Prop :=
  ∃ evs, t.events = s.events ++ evs ∧ evs.map Event.sent = txs.map some

/-- Frame WI (30_encoding.md R107). -/
def frameWI (c : Cfg) (a : Byte) : List Byte := [sbWI c, 0x00, a]

/-- Frame WD (R108). -/
def frameWD (c : Cfg) (v : Word) : List Byte := [sbWD c, hiByte v, loByte v]

/-- Frame RD (R109). -/
def frameRD (c : Cfg) : List Byte := [sbRD c, 0x00, 0x00, 0x00]

/-- The four frames of `SetCursor(x, y)` (41_display_surface.md R140). -/
def cursorFrames (c : Cfg) (x y : Word) : List (List Byte) :=
  [frameWI c 0x20, frameWD c x, frameWI c 0x21, frameWD c y]

/-- The frames of one call of `Plot` in the area `g` (R142): six inside, none outside. -/
def plotFrames (c : Cfg) (g : Geom) (d : Dot) : List (List Byte) :=
  if 0 ≤ d.x ∧ d.x < g.w ∧ 0 ≤ d.y ∧ d.y < g.h then
    cursorFrames c (u16 d.x) (u16 d.y) ++ [frameWI c 0x22, frameWD c d.c]
  else []

/-- A host read of index `i` answers `v` and changes nothing else (10_state.md R20). -/
def ReadsAs (s : State) (i : BitVec 7) (v : HostVal) : Prop :=
  ∀ rest, step { s with host := .read i :: rest } = .next { s with host := rest, reply := some v }

/-- A host write of `v` to index `i` leaves the register file `r` and changes nothing else (R20). -/
def WritesTo (s : State) (i : BitVec 7) (v : Word) (r : Regs) : Prop :=
  ∀ rest, step { s with host := .write i v :: rest } = .next { s with host := rest, regs := r }

/-- The panel contract is in force and frames reach the panel (20_memory.md R63, R70). -/
def PanelAlive (s : State) : Prop :=
  s.link.bus = .display ∧ s.link.panel.dead = false

/-- The premise of every claim about pixels (R63, R76): the contract is in force, and the panel's geometry agrees
with the addressable area. -/
def PanelReady (s : State) : Prop :=
  PanelAlive s ∧ s.link.panel.geom = some s.area

/-- The panel after a pixel write at (x, y) in the geometry `g`: the index at 0x22, the read latch cleared, the cursor
one pixel further in row-major order, with wrap at both ends (R72, R74). -/
def CursorPast (g : Geom) (x y : Nat) (q : Panel) : Prop :=
  q.ir = 0x22 ∧ q.rdv = false ∧
  q.ax.toNat = (if x + 1 = g.w then 0 else x + 1) ∧
  q.ay.toNat = (if x + 1 = g.w then (if y + 1 = g.h then 0 else y + 1) else y)

/-- What R72 and R74 say of a data write of `v` that takes a panel in force from `p` to `q`, by the index of `p`: the
cursor registers; a pixel at the cursor, with every other pixel unchanged and the cursor advanced; the geometry of the
orientation a scan value selects, with the pixels kept if it is the same (where both orientations have one scan value
and different geometries, log entry 10 applies); a pixel write outside the geometry, another scan value and a write of
any other register, which end what the contract says. -/
def DataWriteFollows (c : Cfg) (p : Panel) (v : Word) (q : Panel) : Prop :=
  (p.ir = 0x20 → q = { p with ax := v, rdv := false }) ∧
  (p.ir = 0x21 → q = { p with ay := v, rdv := false }) ∧
  (∀ g, p.ir = 0x22 → p.geom = some g → g.w ≤ 32767 → g.h ≤ 32767 → p.ax.toNat < g.w → p.ay.toNat < g.h →
    q.pixel p.ax p.ay = some v ∧
    (∀ x y, (x, y) ≠ (p.ax, p.ay) → q.pixel x y = p.pixel x y) ∧
    q.geom = some g ∧ q.dead = false ∧ CursorPast g p.ax.toNat p.ay.toNat q) ∧
  (p.ir = 0x22 → (∀ g, p.geom = some g → ¬ (p.ax.toNat < g.w ∧ p.ay.toNat < g.h)) → q.dead = true) ∧
  (p.ir = scanReg c → ∀ o, v = scanValue c o →
    (scanValue c .portrait ≠ scanValue c .landscape ∨ wNative c = hNative c) →
    q.geom = some (dims c o) ∧ q.dead = false ∧
      (p.geom = some (dims c o) → ∀ x y, q.pixel x y = p.pixel x y)) ∧
  (p.ir = scanReg c → (∀ o, v ≠ scanValue c o) → q.dead = true) ∧
  (p.ir ≠ 0x20 → p.ir ≠ 0x21 → p.ir ≠ 0x22 → p.ir ≠ scanReg c → q.dead = true)

/-- Two states hold the same calibration matrix (10_state.md R31). -/
def SameMatrix (s t : State) : Prop :=
  t.regs.an = s.regs.an ∧ t.regs.bn = s.regs.bn ∧ t.regs.cn = s.regs.cn ∧ t.regs.dn = s.regs.dn ∧
  t.regs.en = s.regs.en ∧ t.regs.fn = s.regs.fn ∧ t.regs.divider = s.regs.divider

/-- The calls of `Plot` of a drawing command (42_rasterizer.md, 43_text_blit.md, R145), and none for the others;
CLEAR is not among them, since it streams (R147). -/
def dotsOf (i : Instr) (s : State) : List Dot :=
  match i with
  | .setPoint => pointDots s.regs
  | .line => lineDots (s.regs.xInt 0) (s.regs.xInt 1) (s.regs.xInt 2) (s.regs.xInt 3) (s.regs.x 4)
  | .box => boxEdges (s.regs.xInt 0) (s.regs.xInt 1) (s.regs.xInt 2) (s.regs.xInt 3) (s.regs.x 4)
  | .boxFill =>
    boxEdges (s.regs.xInt 0) (s.regs.xInt 1) (s.regs.xInt 2) (s.regs.xInt 3) (s.regs.x 4) ++
      boxInterior (s.regs.xInt 0) (s.regs.xInt 1) (s.regs.xInt 2) (s.regs.xInt 3) (s.regs.x 5)
  | .circle => circleDots (s.regs.xInt 0) (s.regs.xInt 1) (s.regs.x 2).toNat (s.regs.x 3)
  | .circleFill => circleFillDots (s.regs.xInt 0) (s.regs.xInt 1) (s.regs.x 2).toNat (s.regs.x 3) (s.regs.x 4)
  | .putChar =>
    charDots s.cfg s.regs.orient (s.regs.xInt 0) (s.regs.xInt 1) (s.regs.xLow 2) (s.regs.x 3) (s.regs.x 4)
  | .nop | .writeIndex | .writeData | .readData | .writeReg | .readReg | .setCursor | .getPoint | .clear
  | .setOrient | .touchAcquire | .touchFilter | .calSolve | .calApply | .calApplyRaw => []

/-- The seven commands drawn by calls of `Plot`. -/
def plotters : List Instr := [.setPoint, .line, .box, .boxFill, .circle, .circleFill, .putChar]

/-- The colour the last of the dots at (x, y) gives, if any is there. -/
def lastColour (ds : List Dot) (x y : Word) : Option Word :=
  (ds.reverse.find? fun d => d.x == (x.toNat : Int) && d.y == (y.toNat : Int)).map Dot.c

/-- The matrix registers hold numbers in the ranges of 45_calibration.md R224. -/
structure MatrixBounded (r : Regs) : Prop where
  an : r.an.toInt.natAbs < 2 ^ 33
  bn : r.bn.toInt.natAbs < 2 ^ 33
  cn : r.cn.toInt.natAbs < 2 ^ 50
  dn : r.dn.toInt.natAbs < 2 ^ 33
  en : r.en.toInt.natAbs < 2 ^ 33
  fn : r.fn.toInt.natAbs < 2 ^ 50
  divider : r.divider.toInt.natAbs < 2 ^ 33

/-- The pixel memory is in its canonical form, every listed cell is a pixel of the geometry, and the geometry is
that of an orientation (20_memory.md R70, R72). -/
structure PanelWf (c : Cfg) (p : Panel) : Prop where
  form : p.gram.wf
  inside : ∀ cell ∈ p.gram.cells, ∃ g x y,
    p.geom = some g ∧ x.toNat < g.w ∧ y.toNat < g.h ∧ cell.1 = pixelKey x y
  legal : ∀ g, p.geom = some g → ∃ o, g = dims c o

/-- The invariant between two steps: no command in progress (R240), the bus selected to the display (R63),
ERR_CODE non-zero exactly when ERR is set (R25) and one of the codes 0..8 (R242), the panel well formed, the
matrix in range. -/
structure Inv (s : State) : Prop where
  idle : s.regs.busy = false
  bus : s.link.bus = .display
  report : s.regs.err = (s.regs.errCode != 0)
  code : s.regs.errCode.toNat ≤ 8
  panel : PanelWf s.cfg s.link.panel
  matrix : MatrixBounded s.regs

end Sys2Proof.Machine
end

