-- ==== Sys2Proof/Certificates/Slice0/Obligations.lean ====
section
/-! DEFINITION. The statements for the provers, one `def Obligations.<Name> : Prop` each. Each docstring names
the rules of spec/ it formalises. -/

open Sys2Proof Sys2Proof.Machine

/-! ### Encoding and the command port -/

/-- R103, the match column: the 22 words, written out, decode to their commands. -/
def Obligations.AssignedWordsDecode : Prop :=
  decode 0x0000 = .ok .nop ∧ decode 0x0001 = .ok .writeIndex ∧ decode 0x0002 = .ok .writeData ∧
  decode 0x0003 = .ok .readData ∧ decode 0x0004 = .ok .writeReg ∧ decode 0x0005 = .ok .readReg ∧
  decode 0x0010 = .ok .setCursor ∧ decode 0x0011 = .ok .setPoint ∧ decode 0x0012 = .ok .getPoint ∧
  decode 0x0013 = .ok .clear ∧ decode 0x0014 = .ok .setOrient ∧ decode 0x0020 = .ok .line ∧
  decode 0x0021 = .ok .box ∧ decode 0x0022 = .ok .boxFill ∧ decode 0x0023 = .ok .circle ∧
  decode 0x0024 = .ok .circleFill ∧ decode 0x0028 = .ok .putChar ∧ decode 0x0030 = .ok .touchAcquire ∧
  decode 0x0031 = .ok .touchFilter ∧ decode 0x0040 = .ok .calSolve ∧ decode 0x0041 = .ok .calApply ∧
  decode 0x0042 = .ok .calApplyRaw

/-- R101, R104: a word decodes to a command exactly when it is that command's encoding, so the two directions agree
and every other word is rejected. -/
def Obligations.DecodeInvertsEncode : Prop :=
  ∀ (w : Word) (i : Instr), decode w = .ok i ↔ w = encode i

/-- R22, R101: with a write of CMD next and BUSY = 0, a step is the execution of the decoded command on the state
from which the access has been taken. -/
def Obligations.StepRunsTheDecodedCommand : Prop :=
  ∀ (s : State) (w : Word) (rest : List HostAccess) (i : Instr),
    s.host = .write cmdIndex w :: rest → s.regs.busy = false → decode w = .ok i →
    step s = exec i { s with host := rest }

/-- R243: a CMD word with a non-zero upper byte or an unassigned opcode ends with ILLEGAL_CMD (code 1); nothing but
ERR, ERR_CODE and BUSY changes, and no event is emitted. -/
def Obligations.IllegalWordOnlyReports : Prop :=
  ∀ (s : State) (w : Word) (rest : List HostAccess),
    s.host = .write cmdIndex w :: rest → s.regs.busy = false →
    (w.extractLsb' 8 8 ≠ 0 ∨ ∀ i, opcodeOf i ≠ w.extractLsb' 0 8) →
    step s = .next { s with host := rest, regs := { s.regs with busy := false, err := true, errCode := 1 } }

/-- R21, R22: while BUSY = 1 a host write, of CMD as of any register, changes nothing and is not queued. -/
def Obligations.BusyIgnoresHostWrites : Prop :=
  ∀ (s : State) (i : BitVec 7) (v : Word) (rest : List HostAccess),
    s.host = .write i v :: rest → s.regs.busy = true → step s = .next { s with host := rest }

/-- R20, the read column: every register reads at its index, at its width; CMD and every index without a register
read 0. STATUS is `StatusReadPollsTheLine`. -/
def Obligations.HostReadsFollowTheRegisterMap : Prop :=
  ∀ s : State, s.regs.busy = false →
    (∀ k : Fin 12, ReadsAs s (BitVec.ofNat 7 k) (.half s.regs.arg[k])) ∧
    (∀ k : Fin 9, ReadsAs s (BitVec.ofNat 7 (0x20 + k)) (.half s.regs.swx[k])) ∧
    (∀ k : Fin 9, ReadsAs s (BitVec.ofNat 7 (0x30 + k)) (.half s.regs.swy[k])) ∧
    ReadsAs s 0x12 (.half (0#8 ++ s.regs.errCode)) ∧
    ReadsAs s 0x13 (.half s.regs.res0) ∧ ReadsAs s 0x14 (.half s.regs.res1) ∧
    ReadsAs s 0x18 (.half (match s.regs.orient with | .portrait => 0 | .landscape => 1)) ∧
    ReadsAs s 0x19 (.half s.regs.rawX) ∧ ReadsAs s 0x1A (.half s.regs.rawY) ∧
    ReadsAs s 0x1B (.half s.regs.dispX) ∧ ReadsAs s 0x1C (.half s.regs.dispY) ∧
    ReadsAs s 0x39 (.half (0#12 ++ s.regs.swCount)) ∧
    ReadsAs s 0x40 (.quad s.regs.an) ∧ ReadsAs s 0x41 (.quad s.regs.bn) ∧ ReadsAs s 0x42 (.quad s.regs.cn) ∧
    ReadsAs s 0x43 (.quad s.regs.dn) ∧ ReadsAs s 0x44 (.quad s.regs.en) ∧ ReadsAs s 0x45 (.quad s.regs.fn) ∧
    ReadsAs s 0x46 (.quad s.regs.divider) ∧
    (∀ i : BitVec 7,
      (i.toNat ∈ [0x0C, 0x0D, 0x0E, 0x0F, 0x10, 0x15, 0x16, 0x17, 0x1D, 0x1E, 0x1F] ∨
        (0x29 ≤ i.toNat ∧ i.toNat ≤ 0x2F) ∨ (0x3A ≤ i.toNat ∧ i.toNat ≤ 0x3F) ∨ 0x47 ≤ i.toNat) →
      ReadsAs s i (.half 0))

/-- R24: a host read of STATUS polls the touch-ready line once, appends that one `GpioRead`, and returns the flags;
nothing else changes. -/
def Obligations.StatusReadPollsTheLine : Prop :=
  ∀ (s : State) (rest : List HostAccess), s.host = .read 0x11 :: rest → s.regs.busy = false →
    ∃ line env v, step s = .next
        { s with
          host := rest, reply := some (.half v),
          link := { s.link with trace := .gpioRead line :: s.link.trace, env := env } } ∧
      v.getLsbD 0 = false ∧ v.getLsbD 1 = s.regs.err ∧ v.getLsbD 2 = s.regs.orientValid ∧
      v.getLsbD 3 = s.regs.rawValid ∧ v.getLsbD 4 = s.regs.dispValid ∧
      v.getLsbD 5 = decide (s.regs.divider ≠ 0) ∧ v.getLsbD 6 = decide (line = .asserted) ∧
      v.extractLsb' 7 9 = 0

/-- R20, R21, R30, the write column: ARG0..ARG11, the sample window and SW_COUNT (bits 3:0) are written; a write of any
other index but CMD is ignored. -/
def Obligations.HostWritesReachOnlyWritableRegisters : Prop :=
  ∀ (s : State) (v : Word), s.regs.busy = false →
    (∀ k : Fin 12, WritesTo s (BitVec.ofNat 7 k) v { s.regs with arg := s.regs.arg.set k v }) ∧
    (∀ k : Fin 9, WritesTo s (BitVec.ofNat 7 (0x20 + k)) v { s.regs with swx := s.regs.swx.set k v }) ∧
    (∀ k : Fin 9, WritesTo s (BitVec.ofNat 7 (0x30 + k)) v { s.regs with swy := s.regs.swy.set k v }) ∧
    WritesTo s 0x39 v { s.regs with swCount := v.extractLsb' 0 4 } ∧
    (∀ i : BitVec 7,
      ((0x0C ≤ i.toNat ∧ i.toNat ≤ 0x0F) ∨ (0x11 ≤ i.toNat ∧ i.toNat ≤ 0x1F) ∨ (0x29 ≤ i.toNat ∧ i.toNat ≤ 0x2F) ∨
        0x3A ≤ i.toNat) →
      WritesTo s i v s.regs)

/-! ### The life of a command, reset -/

/-- R240, R25, R242: every command, from every state, ends in a next state with BUSY = 0, ERR_CODE non-zero exactly
when ERR = 1, and a code 0..8. -/
def Obligations.EveryCommandTerminatesAndReports : Prop :=
  ∀ (i : Instr) (s : State), ∃ t, exec i s = .next t ∧ t.regs.busy = false ∧
    (t.regs.err = true ↔ t.regs.errCode ≠ 0) ∧ t.regs.errCode.toNat ≤ 8

/-- R21, R32: no command writes an ARG register, and none changes the configuration; the host's pending accesses and
its last reply (the model's own fields) stay as well. -/
def Obligations.CommandsKeepOperandsAndConfiguration : Prop :=
  ∀ (i : Instr) (s t : State), exec i s = .next t →
    t.regs.arg = s.regs.arg ∧ t.cfg = s.cfg ∧ t.host = s.host ∧ t.reply = s.reply

/-- R33: after reset every register is 0, nothing is valid, no command is in progress, the event list is empty. -/
def Obligations.ResetLeavesNothingValid : Prop :=
  let s := State.reset
  s.regs.arg = Vector.replicate 12 0 ∧ s.regs.res0 = 0 ∧ s.regs.res1 = 0 ∧
  (∀ line, statusWord s.regs line = if line = .asserted then 0x0040 else 0) ∧
  s.regs.busy = false ∧ s.regs.err = false ∧ s.regs.orientValid = false ∧ s.regs.rawValid = false ∧
  s.regs.dispValid = false ∧ s.regs.matrixValid = false ∧
  s.regs.errCode = 0 ∧ s.regs.orient = .portrait ∧ s.regs.rawX = 0 ∧ s.regs.rawY = 0 ∧ s.regs.dispX = 0 ∧
  s.regs.dispY = 0 ∧ s.regs.swx = Vector.replicate 9 0 ∧ s.regs.swy = Vector.replicate 9 0 ∧ s.regs.swCount = 0 ∧
  s.regs.an = 0 ∧ s.regs.bn = 0 ∧ s.regs.cn = 0 ∧ s.regs.dn = 0 ∧ s.regs.en = 0 ∧ s.regs.fn = 0 ∧
  s.regs.divider = 0 ∧ s.events = []

/-- R270, R271: a reset of the DFC resets the register file and the event list and emits nothing; the panel, the bus
selection and the environment stay. That reset is an access of the host is the model's (log entry 18). -/
def Obligations.ResetOfTheDfcLeavesThePanel : Prop :=
  ∀ (s : State) (rest : List HostAccess), s.host = .reset :: rest →
    ∃ t, step s = .next t ∧ t.regs = State.reset.regs ∧ t.events = [] ∧ t.link.panel = s.link.panel ∧
      t.link.bus = s.link.bus ∧ t.link.env = s.link.env ∧ t.cfg = s.cfg ∧ t.host = rest ∧ t.reply = s.reply

/-! ### Register protocol -/

/-- R120: NOP clears ERR and ERR_CODE and changes nothing else. -/
def Obligations.NopOnlyClearsTheReport : Prop :=
  decode 0x0000 = .ok .nop ∧
  ∀ s : State, exec .nop s = .next { s with regs := clearedRegs s.regs }

/-- R105, R106: the layout of the start bytes, and that the three are pairwise distinct. -/
def Obligations.StartBytesAreDistinct : Prop :=
  ∀ c : Cfg,
    (∀ sb, (sb = sbWI c ∨ sb = sbWD c ∨ sb = sbRD c) →
      sb.extractLsb' 3 5 = c.startPrefix ∧ sb.extractLsb' 0 1 = c.startReserved) ∧
    (sbWI c).extractLsb' 2 1 = ~~~ c.rsData ∧ (sbWD c).extractLsb' 2 1 = c.rsData ∧
    (sbRD c).extractLsb' 2 1 = c.rsData ∧ (sbWI c).extractLsb' 1 1 = ~~~ c.rwRead ∧
    (sbWD c).extractLsb' 1 1 = ~~~ c.rwRead ∧ (sbRD c).extractLsb' 1 1 = c.rwRead ∧
    sbWI c ≠ sbWD c ∧ sbWD c ≠ sbRD c ∧ sbWI c ≠ sbRD c

/-- R121, R71: WRITE_INDEX sends `[SB_WI, 0x00, ARG0[7:0]]` and nothing more; only the common flags of the register
file change; a panel in force has its index there and its read latch cleared. -/
def Obligations.WriteIndexSendsOneFrame : Prop :=
  decode 0x0001 = .ok .writeIndex ∧
  ∀ s : State, ∃ t rx, exec .writeIndex s = .next t ∧
    t = { s with regs := clearedRegs s.regs, link := t.link } ∧ t.link.bus = s.link.bus ∧
    t.events = s.events ++ [.xchg [sbWI s.cfg, 0x00, s.regs.arg[0].extractLsb' 0 8] rx] ∧
    (PanelAlive s → t.link.panel = { s.link.panel with ir := s.regs.arg[0].extractLsb' 0 8, rdv := false })

/-- R122: WRITE_DATA sends `[SB_WD, ARG0[15:8], ARG0[7:0]]` and nothing more; only the common flags of the register
file change. What the panel does with it is `PanelDataWriteFollowsTheIndex`. -/
def Obligations.WriteDataSendsOneFrame : Prop :=
  decode 0x0002 = .ok .writeData ∧
  ∀ s : State, ∃ t rx, exec .writeData s = .next t ∧
    t = { s with regs := clearedRegs s.regs, link := t.link } ∧ t.link.bus = s.link.bus ∧
    t.events = s.events ++
      [.xchg [sbWD s.cfg, s.regs.arg[0].extractLsb' 8 8, s.regs.arg[0].extractLsb' 0 8] rx]

/-- R72, R74: what WRITE_DATA does to a panel in force, by its index register; `DataWriteFollows` says it clause by
clause. -/
def Obligations.PanelDataWriteFollowsTheIndex : Prop :=
  ∀ s t : State, PanelAlive s → exec .writeData s = .next t →
    DataWriteFollows s.cfg s.link.panel s.regs.arg[0] t.link.panel

/-- R123, R109: READ_DATA sends `[SB_RD, 0, 0, 0]`, receives four bytes and stores the last two, high byte first, in
RES0, with no conversion; nothing else of the register file changes. -/
def Obligations.ReadDataStoresTheLastTwoBytes : Prop :=
  decode 0x0003 = .ok .readData ∧
  ∀ s : State, ∃ t a b h l, exec .readData s = .next t ∧
    t = { s with regs := { clearedRegs s.regs with res0 := h ++ l }, link := t.link } ∧ t.link.bus = s.link.bus ∧
    t.events = s.events ++ [.xchg [sbRD s.cfg, 0x00, 0x00, 0x00] [a, b, h, l]]

/-- R73, U11: a READ_DATA of register 0x22 on a panel in force: with the latch valid and the cursor inside, RES0 is the
pixel at the cursor with red and blue exchanged; every read makes the latch valid and moves nothing else. -/
def Obligations.PanelReadLatchesThenReturnsThePixel : Prop :=
  ∀ s t : State, PanelAlive s → s.link.panel.ir = 0x22 → exec .readData s = .next t →
    t.link.panel = { s.link.panel with rdv := true } ∧
    (∀ v, s.link.panel.rdv = true → s.link.panel.pixel s.link.panel.ax s.link.panel.ay = some v →
      t.regs.res0 = v.extractLsb' 0 5 ++ v.extractLsb' 5 6 ++ v.extractLsb' 11 5)

/-- R124: WRITE_REG sends an index frame for ARG0[7:0] and then a data frame of ARG1, and nothing more. On a panel in
force its index is there after, and the data write does what R72 and R74 say of it at that index: the cursor registers,
a pixel and the advance, the geometry, or the end of the contract. A write of the pixel register inside the geometry
stores the pixel at the cursor, and no other pixel changes while the contract stays in force, but for a write of the
scan-direction register. -/
def Obligations.WriteRegSendsIndexThenData : Prop :=
  decode 0x0004 = .ok .writeReg ∧
  ∀ s : State, ∃ t, exec .writeReg s = .next t ∧
    t = { s with regs := clearedRegs s.regs, link := t.link } ∧ t.link.bus = s.link.bus ∧
    Emits s t [[sbWI s.cfg, 0x00, s.regs.arg[0].extractLsb' 0 8],
      [sbWD s.cfg, s.regs.arg[1].extractLsb' 8 8, s.regs.arg[1].extractLsb' 0 8]] ∧
    (PanelAlive s →
      let a := s.regs.arg[0].extractLsb' 0 8
      let p := s.link.panel
      t.link.panel.ir = a ∧ DataWriteFollows s.cfg { p with ir := a, rdv := false } s.regs.arg[1] t.link.panel ∧
      (∀ v, a = 0x22 → p.pixel p.ax p.ay = some v → t.link.panel.pixel p.ax p.ay = some s.regs.arg[1]) ∧
      (a ≠ scanReg s.cfg → t.link.panel.dead = false →
        ∀ x y, ¬ (a = 0x22 ∧ (x, y) = (p.ax, p.ay)) → t.link.panel.pixel x y = p.pixel x y))

/-- R125: READ_REG sends an index frame for ARG0[7:0] and a read frame, and stores the last two bytes received. -/
def Obligations.ReadRegSendsIndexThenRead : Prop :=
  decode 0x0005 = .ok .readReg ∧
  ∀ s : State, ∃ t rx a b h l, exec .readReg s = .next t ∧
    t = { s with regs := { clearedRegs s.regs with res0 := h ++ l }, link := t.link } ∧ t.link.bus = s.link.bus ∧
    t.events = s.events ++
      [.xchg [sbWI s.cfg, 0x00, s.regs.arg[0].extractLsb' 0 8] rx,
       .xchg [sbRD s.cfg, 0x00, 0x00, 0x00] [a, b, h, l]]

/-! ### Display surface -/

/-- R144: the conversion exchanges the outer five-bit fields, and is its own inverse. -/
def Obligations.SwapRBIsItsOwnInverse : Prop :=
  ∀ v : Word,
    swapRB v = ((v &&& 0x001F) <<< 11) ||| (v &&& 0x07E0) ||| ((v >>> 11) &&& 0x001F) ∧ swapRB (swapRB v) = v

/-- R140: SET_CURSOR sends four frames, X first, whatever the values and the orientation; a panel in force has its
cursor there and its index at 0x21. -/
def Obligations.SetCursorSendsXThenY : Prop :=
  decode 0x0010 = .ok .setCursor ∧
  ∀ s : State, ∃ t, exec .setCursor s = .next t ∧
    t = { s with regs := clearedRegs s.regs, link := t.link } ∧ t.link.bus = s.link.bus ∧
    Emits s t [frameWI s.cfg 0x20, frameWD s.cfg s.regs.arg[0], frameWI s.cfg 0x21, frameWD s.cfg s.regs.arg[1]] ∧
    (PanelAlive s →
      t.link.panel = { s.link.panel with ir := 0x21, ax := s.regs.arg[0], ay := s.regs.arg[1], rdv := false })

/-- R141: the eight drawing commands end with NOT_INIT (code 2) before any event while ORIENT_VALID = 0; the commands of
the register protocol, SET_CURSOR and GET_POINT have no gate and never fail. -/
def Obligations.OrientationGate : Prop :=
  (∀ i ∈ [Instr.setPoint, .clear, .line, .box, .boxFill, .circle, .circleFill, .putChar],
    ∀ s : State, s.regs.orientValid = false →
      exec i s = .next { s with regs := { s.regs with busy := false, err := true, errCode := 2 } }) ∧
  (∀ i ∈ [Instr.nop, .writeIndex, .writeData, .readData, .writeReg, .readReg, .setCursor, .getPoint],
    ∀ s : State, ∃ t, exec i s = .next t ∧ t.regs.err = false)

/-- R142, R145: SET_POINT is one call of `Plot`; inside `W × H` it sends its six frames, and on a ready panel leaves the
index at 0x22 and the cursor one pixel past (x, y) (R74, R77); outside, no frame, no error, and no change. -/
def Obligations.SetPointPlotsOrDrops : Prop :=
  ∀ s : State, s.regs.orientValid = true →
    let x := s.regs.arg[0]
    let y := s.regs.arg[1]
    dotsOf .setPoint s = [{ x := x.toNat, y := y.toNat, c := s.regs.arg[2] }] ∧
    (x.toNat < s.area.w ∧ y.toNat < s.area.h →
      ∃ t, exec .setPoint s = .next t ∧ t = { s with regs := clearedRegs s.regs, link := t.link } ∧
        t.link.bus = s.link.bus ∧
        Emits s t [frameWI s.cfg 0x20, frameWD s.cfg x, frameWI s.cfg 0x21, frameWD s.cfg y,
          frameWI s.cfg 0x22, frameWD s.cfg s.regs.arg[2]] ∧
        (PanelReady s → CursorPast s.area x.toNat y.toNat t.link.panel)) ∧
    (¬ (x.toNat < s.area.w ∧ y.toNat < s.area.h) →
      exec .setPoint s = .next { s with regs := clearedRegs s.regs })

/-- R143, R146: GET_POINT sends seven frames, discards the first read and stores the converted second one in RES0; it
has no gate and no bounds check. A panel in force is left with the index at 0x22, the cursor at the operands, whatever
they are, the read latch valid (R73, R77) and nothing else changed. -/
def Obligations.GetPointSendsSevenFrames : Prop :=
  decode 0x0012 = .ok .getPoint ∧
  ∀ s : State, ∃ t evs rx a b h l, exec .getPoint s = .next t ∧
    t = { s with regs := { clearedRegs s.regs with res0 := swapRB (h ++ l) }, link := t.link } ∧
    t.link.bus = s.link.bus ∧
    t.events = s.events ++ evs ++ [.xchg (frameRD s.cfg) rx, .xchg (frameRD s.cfg) [a, b, h, l]] ∧
    evs.map Event.sent = [some (frameWI s.cfg 0x20), some (frameWD s.cfg s.regs.arg[0]), some (frameWI s.cfg 0x21),
      some (frameWD s.cfg s.regs.arg[1]), some (frameWI s.cfg 0x22)] ∧
    (PanelAlive s → t.link.panel =
      { s.link.panel with ir := 0x22, ax := s.regs.arg[0], ay := s.regs.arg[1], rdv := true })

/-- R147: CLEAR sends the six frames of the plot at (0, 0) and then `W·H − 1` data frames, with no cursor or index
frame between. -/
def Obligations.ClearSendsItsStream : Prop :=
  ∀ s : State, s.regs.orientValid = true →
    ∃ t, exec .clear s = .next t ∧ t = { s with regs := clearedRegs s.regs, link := t.link } ∧
      t.link.bus = s.link.bus ∧
      Emits s t ([frameWI s.cfg 0x20, frameWD s.cfg 0, frameWI s.cfg 0x21, frameWD s.cfg 0, frameWI s.cfg 0x22,
        frameWD s.cfg s.regs.arg[0]] ++ List.replicate (s.area.w * s.area.h - 1) (frameWD s.cfg s.regs.arg[0]))

/-- R147, R74: on a ready panel, after CLEAR every pixel of the area holds the colour, and the cursor is back at
(0, 0). -/
def Obligations.ClearFillsThePanel : Prop :=
  ∀ s : State, s.regs.orientValid = true → PanelReady s →
    ∃ t, exec .clear s = .next t ∧ PanelReady t ∧
      (∀ x y : Word, x.toNat < s.area.w → y.toNat < s.area.h → t.link.panel.pixel x y = some s.regs.arg[0]) ∧
      t.link.panel.ax = 0 ∧ t.link.panel.ay = 0

/-- R148: SET_ORIENT with 0 or 1 stores the orientation, sets ORIENT_VALID and writes the scan value to the
scan-direction register; above 1 it raises BAD_ORIENT (code 8) with everything else untouched. -/
def Obligations.SetOrientStoresAndWritesTheScanRegister : Prop :=
  decode 0x0014 = .ok .setOrient ∧
  ∀ s : State,
    (∀ o : Orient, s.regs.arg[0] = (match o with | .portrait => 0 | .landscape => 1) →
      ∃ t, exec .setOrient s = .next t ∧
        t = { s with regs := { clearedRegs s.regs with orient := o, orientValid := true }, link := t.link } ∧
        t.link.bus = s.link.bus ∧ Emits s t [frameWI s.cfg (scanReg s.cfg), frameWD s.cfg (scanValue s.cfg o)]) ∧
    (1 < s.regs.arg[0].toNat →
      exec .setOrient s = .next { s with regs := { s.regs with busy := false, err := true, errCode := 8 } })

/-- R76, R72: after a SET_ORIENT on a panel in force the geometry is the addressable area, provided the two scan values
differ or the area is square (log entry 10); while the geometry is unchanged, so is every pixel. -/
def Obligations.SetOrientAgreesTheGeometry : Prop :=
  ∀ s t : State, PanelAlive s → exec .setOrient s = .next t → t.regs.err = false →
    (scanValue s.cfg .portrait ≠ scanValue s.cfg .landscape ∨ wNative s.cfg = hNative s.cfg) →
    PanelReady t ∧
      (s.link.panel.geom = some t.area → ∀ x y, t.link.panel.pixel x y = s.link.panel.pixel x y)

/-! ### Rasterizer and text -/

/-- R142, R160 to R168, R191: with the orientation set, a command drawn by `Plot` sends exactly the frames of its calls
in order, six for one inside the area and none outside, and changes nothing of the register file but the common
flags. The calls are `dotsOf`; the statements below say what they are. -/
def Obligations.DrawingSendsTheFramesOfItsPlots : Prop :=
  ∀ i ∈ plotters, ∀ s : State, s.regs.orientValid = true →
    ∃ t, exec i s = .next t ∧ t = { s with regs := clearedRegs s.regs, link := t.link } ∧
      t.link.bus = s.link.bus ∧ Emits s t ((dotsOf i s).flatMap (plotFrames s.cfg s.area))

/-- R142, R168 on a ready panel: a pixel of the area shows the colour of the last call of `Plot` on it, and a pixel with
no call keeps its colour. After the last call inside the area the index is at 0x22 and the cursor one pixel past it
(R74, R77, R122); with no call inside the area the panel is as it was. -/
def Obligations.DrawingChangesOnlyItsPixels : Prop :=
  ∀ i ∈ plotters, ∀ s : State, s.regs.orientValid = true → PanelReady s →
    ∃ t, exec i s = .next t ∧ PanelReady t ∧
      (∀ x y : Word, x.toNat < s.area.w → y.toNat < s.area.h →
        t.link.panel.pixel x y =
          match lastColour (dotsOf i s) x y with
          | some c => some c
          | none => s.link.panel.pixel x y) ∧
      match ((dotsOf i s).filter (Dot.inside s.area)).getLast? with
      | some d => CursorPast s.area d.x.toNat d.y.toNat t.link.panel
      | none => t.link.panel = s.link.panel

/-- R161: on an x-driven line, the tie included, `adx + 1` points, the k-th at `x0 + k·sx` with its ordinate at
`y0 + sy·((adx div 2 + k·ady) div adx)`; on a y-driven line the same with the axes exchanged. The closed form is this
statement's; the rule gives the loop it comes from. -/
def Obligations.LineHasTheMidpointForm : Prop :=
  ∀ x0 y0 x1 y1 : Int,
    let adx := (x1 - x0).natAbs
    let ady := (y1 - y0).natAbs
    let sx := Int.sign (x1 - x0)
    let sy := Int.sign (y1 - y0)
    (adx ≥ ady → (linePoints x0 y0 x1 y1).length = adx + 1 ∧
      ∀ k, k ≤ adx → (linePoints x0 y0 x1 y1)[k]? =
        some (x0 + sx * k, y0 + sy * (((adx / 2 + k * ady) / adx : Nat) : Int))) ∧
    (adx < ady → (linePoints x0 y0 x1 y1).length = ady + 1 ∧
      ∀ k, k ≤ ady → (linePoints x0 y0 x1 y1)[k]? =
        some (x0 + sx * (((ady / 2 + k * adx) / ady : Nat) : Int), y0 + sy * k))

/-- R161: every line starts at (x0, y0) and ends at (x1, y1), with `max(adx, ady) + 1` calls of `Plot`; the calls of
the command LINE are the points of the line from (ARG0, ARG1) to (ARG2, ARG3), in order, in the colour ARG4. -/
def Obligations.LineRunsFromEndToEnd : Prop :=
  (∀ x0 y0 x1 y1 : Int,
    (linePoints x0 y0 x1 y1).length = max (x1 - x0).natAbs (y1 - y0).natAbs + 1 ∧
    (linePoints x0 y0 x1 y1).head? = some (x0, y0) ∧ (linePoints x0 y0 x1 y1).getLast? = some (x1, y1)) ∧
  ∀ s : State, dotsOf .line s =
    (linePoints s.regs.arg[0].toNat s.regs.arg[1].toNat s.regs.arg[2].toNat s.regs.arg[3].toNat).map
      fun p => { x := p.1, y := p.2, c := s.regs.arg[4] }

/-- R163: BOX plots the lines of the y0 edge, the y1 edge, the x0 edge and the x1 edge, in the border colour. -/
def Obligations.BoxPlotsItsFourEdges : Prop :=
  ∀ s : State,
    let x0 := s.regs.xInt 0
    let y0 := s.regs.xInt 1
    let x1 := s.regs.xInt 2
    let y1 := s.regs.xInt 3
    dotsOf .box s =
      (linePoints x0 y0 x1 y0 ++ linePoints x0 y1 x1 y1 ++ linePoints x0 y0 x0 y1 ++ linePoints x1 y0 x1 y1).map
        fun p => { x := p.1, y := p.2, c := s.regs.arg[4] }

/-- R164: the fill of BOX_FILL covers exactly the points strictly inside the border, in the fill colour, after the
border of BOX: row by row upward, each row from left to right, each point once. -/
def Obligations.BoxFillCoversTheInterior : Prop :=
  ∀ s : State, ∃ fill, dotsOf .boxFill s = dotsOf .box s ++ fill ∧
    (∀ d ∈ fill, d.c = s.regs.arg[5]) ∧
    (fill.Pairwise fun d e => d.y < e.y ∨ (d.y = e.y ∧ d.x < e.x)) ∧
    (∀ x y : Int, (∃ d ∈ fill, d.x = x ∧ d.y = y) ↔
      (min (s.regs.xInt 0) (s.regs.xInt 2) < x ∧ x < max (s.regs.xInt 0) (s.regs.xInt 2) ∧
        min (s.regs.xInt 1) (s.regs.xInt 3) < y ∧ y < max (s.regs.xInt 1) (s.regs.xInt 3)))

/-- R165, R166, R168: CIRCLE makes, for each point of the octant walk in order, the eight calls of `Plot` of the rule
in their order, coinciding ones included; so the points of a circle are closed under the eight reflections about its
centre. -/
def Obligations.CircleIsSymmetric : Prop :=
  (∀ s : State,
    let cx : Int := s.regs.arg[0].toNat
    let cy : Int := s.regs.arg[1].toNat
    let c := s.regs.arg[3]
    dotsOf .circle s = (octant s.regs.arg[2].toNat).flatMap fun p =>
      [{ x := cx + p.1, y := cy + p.2, c := c }, { x := cx - p.1, y := cy + p.2, c := c },
       { x := cx + p.1, y := cy - p.2, c := c }, { x := cx - p.1, y := cy - p.2, c := c },
       { x := cx + p.2, y := cy + p.1, c := c }, { x := cx - p.2, y := cy + p.1, c := c },
       { x := cx + p.2, y := cy - p.1, c := c }, { x := cx - p.2, y := cy - p.1, c := c }]) ∧
  ∀ (cx cy dx dy : Int) (r : Nat), (cx + dx, cy + dy) ∈ circlePoints cx cy r →
    (cx - dx, cy + dy) ∈ circlePoints cx cy r ∧ (cx + dx, cy - dy) ∈ circlePoints cx cy r ∧
    (cx + dy, cy + dx) ∈ circlePoints cx cy r

/-- R165, R240: the octant walk of a circle takes the rule's steps and is ended by its condition `x ≤ y`, not by the
model's bound on iterations: with any larger bound it is the same walk, and all its points satisfy `0 ≤ x ≤ y ≤ r`. -/
def Obligations.OctantWalkEndsByItsCondition : Prop :=
  (∀ (n : Nat) (x y d : Int), octantWalk (n + 1) x y d =
    if x ≤ y then
      (x, y) :: (if d < 0 then octantWalk n (x + 1) y (d + 2 * x + 3)
        else octantWalk n (x + 1) (y - 1) (d + 2 * (x - y) + 5))
    else []) ∧
  ∀ (r extra : Nat), octantWalk (r + 1 + extra) 0 r (1 - r) = octant r ∧
    ∀ p ∈ octant r, 0 ≤ p.1 ∧ p.1 ≤ p.2 ∧ p.2 ≤ (r : Int)

/-- R167: the scan of CIRCLE_FILL plots a point in the fill colour exactly when it lies in the half-open square and its
squared distance is at most r², row by row upward, each row from left to right, each point once; the outline follows in the border colour exactly when the two colours differ. -/
def Obligations.CircleFillScansTheHalfOpenSquare : Prop :=
  ∀ s : State,
    let r : Int := s.regs.xInt 2
    ∃ scan, (∀ dx dy : Int, ((s.regs.xInt 0 + dx, s.regs.xInt 1 + dy) ∈ scan ↔
        -r ≤ dx ∧ dx < r ∧ -r ≤ dy ∧ dy < r ∧ dx * dx + dy * dy ≤ r * r)) ∧
      (scan.Pairwise fun p q => p.2 < q.2 ∨ (p.2 = q.2 ∧ p.1 < q.1)) ∧
      dotsOf .circleFill s = paint s.regs.arg[4] scan ++
        (if s.regs.arg[3] = s.regs.arg[4] then []
         else paint s.regs.arg[3] (circlePoints (s.regs.xInt 0) (s.regs.xInt 1) s.regs.arg[2].toNat))

/-- R190, R191: PUT_CHAR makes 128 calls; the call of row `i` and column `j` is the `8i + j`-th, at `(x + j, y + i)` in
portrait and `(y − i, x + j)` in landscape, in the foreground colour where bit `7 − j` of the glyph's row is 1. -/
def Obligations.PutCharPlotsEveryCell : Prop :=
  ∀ s : State, (dotsOf .putChar s).length = 128 ∧
    ∀ i j : Nat, i < 16 → j < 8 →
      (dotsOf .putChar s)[8 * i + j]? = some
        { x := match s.regs.orient with
            | .portrait => s.regs.xInt 0 + j
            | .landscape => s.regs.xInt 1 - i
          y := match s.regs.orient with
            | .portrait => s.regs.xInt 1 + i
            | .landscape => s.regs.xInt 0 + j
          c := if (glyphRow s.cfg (s.regs.arg[2].extractLsb' 0 8) i).getLsbD (7 - j) then s.regs.arg[3]
            else s.regs.arg[4] }

/-! ### Touch -/

/-- R202 to R205: an axis is rejected exactly when all three differences of the group averages exceed the threshold;
otherwise the tie-break, case by case, chooses the two averages whose floor mean is the result, and their difference is
the least of the three. -/
def Obligations.FilterRejectsOrAveragesAClosestPair : Prop :=
  ∀ (threshold : Word) (v : Vector Word 9),
    let a0 := (v[0].toNat + v[1].toNat + v[2].toNat) / 3
    let a1 := (v[3].toNat + v[4].toNat + v[5].toNat) / 3
    let a2 := (v[6].toNat + v[7].toNat + v[8].toNat) / 3
    let m0 := ((a0 : Int) - a1).natAbs
    let m1 := ((a1 : Int) - a2).natAbs
    let m2 := ((a2 : Int) - a0).natAbs
    (filterAxis threshold v = none ↔ threshold.toNat < m0 ∧ threshold.toNat < m1 ∧ threshold.toNat < m2) ∧
    ∀ r, filterAxis threshold v = some r →
      ((m0 < m1 ∧ m2 < m0 → r.toNat = (a0 + a2) / 2) ∧ (m0 < m1 ∧ ¬ m2 < m0 → r.toNat = (a0 + a1) / 2) ∧
        (¬ m0 < m1 ∧ m2 < m1 → r.toNat = (a0 + a2) / 2) ∧ (¬ m0 < m1 ∧ ¬ m2 < m1 → r.toNat = (a1 + a2) / 2)) ∧
      ((r.toNat = (a0 + a1) / 2 ∧ m0 ≤ m1 ∧ m0 ≤ m2) ∨ (r.toNat = (a1 + a2) / 2 ∧ m1 ≤ m0 ∧ m1 ≤ m2) ∨
        (r.toNat = (a0 + a2) / 2 ∧ m2 ≤ m0 ∧ m2 ≤ m1))

/-- R207: TOUCH_FILTER runs the filter on the window as it stands and touches nothing but RAW_X, RAW_Y, RAW_VALID and
the common flags: INCOMPLETE_TOUCH_GESTURE (5) unless SW_COUNT = 9, NOISY_TOUCH_SAMPLE (4) when an axis is rejected. -/
def Obligations.TouchFilterVerdict : Prop :=
  decode 0x0031 = .ok .touchFilter ∧
  ∀ s : State,
    (s.regs.swCount ≠ 9 →
      exec .touchFilter s = .next
        { s with regs := { s.regs with busy := false, err := true, errCode := 5, rawValid := false } }) ∧
    (s.regs.swCount = 9 →
      (filterAxis s.cfg.threshold s.regs.swx = none ∨ filterAxis s.cfg.threshold s.regs.swy = none) →
      exec .touchFilter s = .next
        { s with regs := { s.regs with busy := false, err := true, errCode := 4, rawValid := false } }) ∧
    (∀ rx ry, s.regs.swCount = 9 → filterAxis s.cfg.threshold s.regs.swx = some rx →
      filterAxis s.cfg.threshold s.regs.swy = some ry →
      exec .touchFilter s = .next
        { s with regs := { clearedRegs s.regs with rawX := rx, rawY := ry, rawValid := true } })

/-- R201, R205, R206, R64, R65: whatever the environment answers, TOUCH_ACQUIRE polls once before every pair, reads X then Y,
stops at the first deasserted poll or at nine pairs without a tenth poll, stores the pairs and the count, leaves the
other window entries, the panel and the bus alone, and fails with INCOMPLETE_TOUCH_GESTURE (5) below nine pairs, with
RAW_X and RAW_Y unchanged. With nine pairs the outcome is the filter's verdict on the window just stored:
NOISY_TOUCH_SAMPLE (4) with RAW_X and RAW_Y unchanged when an axis is rejected, else the filtered point. -/
def Obligations.TouchAcquirePollsBeforeEveryPair : Prop :=
  ∀ s : State, ∃ t, ∃ pairs : List (Word × Word), exec .touchAcquire s = .next t ∧ pairs.length ≤ 9 ∧
    t = { s with regs := t.regs, link := t.link } ∧
    t.events = s.events ++
      (pairs.flatMap fun p => [.gpioRead .asserted, .touchXchg .x p.1, .touchXchg .y p.2]) ++
      (if pairs.length = 9 then [] else [.gpioRead .deasserted]) ∧
    t.regs.swCount.toNat = pairs.length ∧
    (∀ k : Fin 9, t.regs.swx[k] = (pairs[k.val]?.map Prod.fst).getD s.regs.swx[k]) ∧
    (∀ k : Fin 9, t.regs.swy[k] = (pairs[k.val]?.map Prod.snd).getD s.regs.swy[k]) ∧
    t.link.panel = s.link.panel ∧ (s.link.bus = .display → t.link.bus = .display) ∧
    (pairs.length < 9 → t.regs = { s.regs with
      busy := false, err := true, errCode := 5, rawValid := false,
      swx := t.regs.swx, swy := t.regs.swy, swCount := t.regs.swCount }) ∧
    (pairs.length = 9 →
      (filterAxis s.cfg.threshold t.regs.swx = none ∨ filterAxis s.cfg.threshold t.regs.swy = none →
        t.regs = { s.regs with
          busy := false, err := true, errCode := 4, rawValid := false,
          swx := t.regs.swx, swy := t.regs.swy, swCount := 9 }) ∧
      (∀ rx ry, filterAxis s.cfg.threshold t.regs.swx = some rx → filterAxis s.cfg.threshold t.regs.swy = some ry →
        t.regs = { clearedRegs s.regs with
          swx := t.regs.swx, swy := t.regs.swy, swCount := 9, rawX := rx, rawY := ry, rawValid := true }))

/-- R206: with nine asserted polls ahead and a window the filter accepts, TOUCH_ACQUIRE ends normally with the window,
the count 9 and the filtered point stored; a window with a rejected axis ends in NOISY_TOUCH_SAMPLE (4) with the
window written and the cached point unchanged. -/
def Obligations.TouchAcquireStoresTheFilteredPoint : Prop :=
  ∀ (s : State) (xs ys : Vector Word 9) (levels : List Level) (samples : List Word),
    s.link.env.ready = List.replicate 9 .asserted ++ levels →
    s.link.env.touch = ((List.zip xs.toList ys.toList).flatMap fun p => [p.1, p.2]) ++ samples →
    (∀ rx ry, filterAxis s.cfg.threshold xs = some rx → filterAxis s.cfg.threshold ys = some ry →
      ∃ t, exec .touchAcquire s = .next t ∧ t.regs = { clearedRegs s.regs with
        swx := xs, swy := ys, swCount := 9, rawX := rx, rawY := ry, rawValid := true }) ∧
    (filterAxis s.cfg.threshold xs = none ∨ filterAxis s.cfg.threshold ys = none →
      ∃ t, exec .touchAcquire s = .next t ∧ t.regs = { s.regs with
        busy := false, err := true, errCode := 4, rawValid := false, swx := xs, swy := ys, swCount := 9 })

/-! ### Calibration -/

/-- R224: for 16-bit operands the magnitudes of the divider, the coefficients and an apply numerator, and that a 64-bit
register holds the seven numbers exactly (`Dn`, `En`, `Fn` are `An`, `Bn`, `Cn` of the display ordinates). -/
def Obligations.MatrixMagnitudes : Prop :=
  ∀ p0 p1 p2 xs0 ys0 xs1 ys1 xs2 ys2 : Word,
    let d := calDivider xs0.toNat ys0.toNat xs1.toNat ys1.toNat xs2.toNat ys2.toNat
    let a := calA p0.toNat p1.toNat p2.toNat ys0.toNat ys1.toNat ys2.toNat
    let b := calB p0.toNat p1.toNat p2.toNat xs0.toNat xs1.toNat xs2.toNat
    let c := calC p0.toNat p1.toNat p2.toNat xs0.toNat ys0.toNat xs1.toNat ys1.toNat xs2.toNat ys2.toNat
    d.natAbs < 2 ^ 33 ∧ a.natAbs < 2 ^ 33 ∧ b.natAbs < 2 ^ 33 ∧ c.natAbs < 3 * 2 ^ 48 ∧
    (∀ xs ys : Word, (a * (xs.toNat : Int) + b * (ys.toNat : Int) + c).natAbs < 2 ^ 51) ∧
    (i64 d).toInt = d ∧ (i64 a).toInt = a ∧ (i64 b).toInt = b ∧ (i64 c).toInt = c

/-- R221, R222, R225: CAL_SOLVE with screen points that are not collinear stores the seven exact integers of the rules;
with a zero divider it stores DIVIDER = 0, keeps AN..FN and raises DEGENERATE_CALIBRATION (3). Nothing else changes,
and no event is emitted. -/
def Obligations.CalSolveStoresTheExactMatrix : Prop :=
  decode 0x0040 = .ok .calSolve ∧
  ∀ s : State,
    let x : Fin 12 → Int := fun i => (s.regs.arg[i].toNat : Int)
    let det := (x 6 - x 10) * (x 9 - x 11) - (x 8 - x 10) * (x 7 - x 11)
    (det ≠ 0 → ∃ t, exec .calSolve s = .next t ∧
      t = { s with regs := { clearedRegs s.regs with
        an := t.regs.an, bn := t.regs.bn, cn := t.regs.cn, dn := t.regs.dn, en := t.regs.en, fn := t.regs.fn,
        divider := t.regs.divider } } ∧
      t.regs.divider.toInt = det ∧
      t.regs.an.toInt = (x 0 - x 4) * (x 9 - x 11) - (x 2 - x 4) * (x 7 - x 11) ∧
      t.regs.bn.toInt = (x 6 - x 10) * (x 2 - x 4) - (x 0 - x 4) * (x 8 - x 10) ∧
      t.regs.cn.toInt = (x 10 * x 2 - x 8 * x 4) * x 7 + (x 6 * x 4 - x 10 * x 0) * x 9 + (x 8 * x 0 - x 6 * x 2) * x 11 ∧
      t.regs.dn.toInt = (x 1 - x 5) * (x 9 - x 11) - (x 3 - x 5) * (x 7 - x 11) ∧
      t.regs.en.toInt = (x 6 - x 10) * (x 3 - x 5) - (x 1 - x 5) * (x 8 - x 10) ∧
      t.regs.fn.toInt =
        (x 10 * x 3 - x 8 * x 5) * x 7 + (x 6 * x 5 - x 10 * x 1) * x 9 + (x 8 * x 1 - x 6 * x 3) * x 11) ∧
    (det = 0 → exec .calSolve s = .next
      { s with regs := { s.regs with busy := false, err := true, errCode := 3, divider := 0 } })

/-- R223, R226: CAL_APPLY evaluates the map on (ARG0, ARG1) with the quotients truncated toward zero and stores the
point; DEGENERATE_CALIBRATION (3) when DIVIDER = 0, RESULT_RANGE (6) when a quotient is outside 0..65535, each with the
results unchanged and DISP_VALID = 0. Nothing else changes, and no event is emitted. -/
def Obligations.CalApplyEvaluatesTheMap : Prop :=
  decode 0x0041 = .ok .calApply ∧
  ∀ s : State,
    let r := s.regs
    let xs := (r.arg[0].toNat : Int)
    let ys := (r.arg[1].toNat : Int)
    let qx := Int.tdiv (r.an.toInt * xs + r.bn.toInt * ys + r.cn.toInt) r.divider.toInt
    let qy := Int.tdiv (r.dn.toInt * xs + r.en.toInt * ys + r.fn.toInt) r.divider.toInt
    (r.divider = 0 → exec .calApply s = .next
      { s with regs := { r with busy := false, err := true, errCode := 3, dispValid := false } }) ∧
    (r.divider ≠ 0 → ¬ (0 ≤ qx ∧ qx ≤ 65535 ∧ 0 ≤ qy ∧ qy ≤ 65535) → exec .calApply s = .next
      { s with regs := { r with busy := false, err := true, errCode := 6, dispValid := false } }) ∧
    (∀ px py : Word, r.divider ≠ 0 → (px.toNat : Int) = qx → (py.toNat : Int) = qy → exec .calApply s = .next
      { s with regs := { clearedRegs r with res0 := px, res1 := py, dispX := px, dispY := py, dispValid := true } })

/-- R227, R247: CAL_APPLY_RAW raises NO_RAW_POINT (7) first when RAW_VALID = 0; otherwise it is CAL_APPLY on the cached
raw point, with the ARG registers untouched. -/
def Obligations.CalApplyRawUsesTheCachedPoint : Prop :=
  decode 0x0042 = .ok .calApplyRaw ∧
  ∀ s : State,
    let r := s.regs
    let xs := (r.rawX.toNat : Int)
    let ys := (r.rawY.toNat : Int)
    let qx := Int.tdiv (r.an.toInt * xs + r.bn.toInt * ys + r.cn.toInt) r.divider.toInt
    let qy := Int.tdiv (r.dn.toInt * xs + r.en.toInt * ys + r.fn.toInt) r.divider.toInt
    (r.rawValid = false → exec .calApplyRaw s = .next
      { s with regs := { r with busy := false, err := true, errCode := 7, dispValid := false } }) ∧
    (r.rawValid = true → r.divider = 0 → exec .calApplyRaw s = .next
      { s with regs := { r with busy := false, err := true, errCode := 3, dispValid := false } }) ∧
    (r.rawValid = true → r.divider ≠ 0 → ¬ (0 ≤ qx ∧ qx ≤ 65535 ∧ 0 ≤ qy ∧ qy ≤ 65535) → exec .calApplyRaw s = .next
      { s with regs := { r with busy := false, err := true, errCode := 6, dispValid := false } }) ∧
    (∀ px py : Word, r.rawValid = true → r.divider ≠ 0 → (px.toNat : Int) = qx → (py.toNat : Int) = qy →
      exec .calApplyRaw s = .next
        { s with regs := { clearedRegs r with res0 := px, res1 := py, dispX := px, dispY := py, dispValid := true } })

/-- R228: after a successful CAL_SOLVE, CAL_APPLY of each of the three screen points, in any state that holds the solved
matrix, returns exactly the display point paired with it. -/
def Obligations.ReferencePointsMapExactly : Prop :=
  ∀ s : State, s.regs.solveDivider ≠ 0 → ∃ t, exec .calSolve s = .next t ∧
    ∀ u : State, SameMatrix t u → ∀ k : Fin 3,
      u.regs.arg[0] = s.regs.arg[6 + 2 * k.val] → u.regs.arg[1] = s.regs.arg[7 + 2 * k.val] →
      ∃ v, exec .calApply u = .next v ∧ v.regs.err = false ∧ v.regs.dispValid = true ∧
        v.regs.res0 = s.regs.arg[2 * k.val] ∧ v.regs.res1 = s.regs.arg[2 * k.val + 1] ∧
        v.regs.dispX = s.regs.arg[2 * k.val] ∧ v.regs.dispY = s.regs.arg[2 * k.val + 1]

/-! ### Whole-machine rules -/

/-- R61, R62: a command only appends to the event list, and every exchange returns as many bytes as it sends, three or
four. -/
def Obligations.EventsAreOnlyAppended : Prop :=
  ∀ (i : Instr) (s t : State), exec i s = .next t →
    ∃ evs, t.events = s.events ++ evs ∧
      ∀ tx rx, Event.xchg tx rx ∈ evs → rx.length = tx.length ∧ (tx.length = 3 ∨ tx.length = 4)

/-- R63: every command leaves the bus selected to the display if it found it there. -/
def Obligations.BusStaysOnTheDisplay : Prop :=
  ∀ (i : Instr) (s t : State), exec i s = .next t → s.link.bus = .display → t.link.bus = .display

/-- R275: the orientation is written only by SET_ORIENT, the matrix only by CAL_SOLVE, RAW_X and RAW_Y only by
TOUCH_ACQUIRE and TOUCH_FILTER, DISP_X and DISP_Y only by CAL_APPLY and CAL_APPLY_RAW. -/
def Obligations.SharedStateHasOneWriter : Prop :=
  ∀ (i : Instr) (s t : State), exec i s = .next t →
    (i ≠ .setOrient → t.regs.orient = s.regs.orient ∧ t.regs.orientValid = s.regs.orientValid) ∧
    (i ≠ .calSolve → SameMatrix s t) ∧
    (i ∉ [Instr.touchAcquire, .touchFilter] →
      t.regs.rawX = s.regs.rawX ∧ t.regs.rawY = s.regs.rawY ∧ t.regs.rawValid = s.regs.rawValid) ∧
    (i ∉ [Instr.calApply, .calApplyRaw] →
      t.regs.dispX = s.regs.dispX ∧ t.regs.dispY = s.regs.dispY ∧ t.regs.dispValid = s.regs.dispValid)

/-- R23, R30: RES0 and RES1 are written only by the commands named for them, the sample window only by TOUCH_ACQUIRE. -/
def Obligations.ResultsAndWindowHaveTheirWriters : Prop :=
  ∀ (i : Instr) (s t : State), exec i s = .next t →
    (i ∉ [Instr.readData, .readReg, .getPoint, .calApply, .calApplyRaw] → t.regs.res0 = s.regs.res0) ∧
    (i ∉ [Instr.calApply, .calApplyRaw] → t.regs.res1 = s.regs.res1) ∧
    (i ≠ .touchAcquire → t.regs.swx = s.regs.swx ∧ t.regs.swy = s.regs.swy ∧ t.regs.swCount = s.regs.swCount)

/-- R70 to R74, R149, R209, R225 to R227: the commands that write no panel register but the index and the cursor leave
every pixel as it was. -/
def Obligations.OtherCommandsKeepEveryPixel : Prop :=
  ∀ i ∈ [Instr.nop, .writeIndex, .readData, .readReg, .setCursor, .getPoint, .touchAcquire, .touchFilter, .calSolve,
      .calApply, .calApplyRaw],
    ∀ s t : State, s.link.bus = .display → exec i s = .next t →
      ∀ x y, t.link.panel.pixel x y = s.link.panel.pixel x y

/-- R70, R72: once the contract says nothing any more, no command makes it say something again, and no pixel is
known. -/
def Obligations.VoidPanelStaysVoid : Prop :=
  ∀ (i : Instr) (s t : State), exec i s = .next t → s.link.panel.dead = true →
    t.link.panel.dead = true ∧ ∀ x y, t.link.panel.pixel x y = none

/-- R78: on a ready panel, SET_POINT at (x, y) inside the area and then, after anything that keeps that pixel, GET_POINT
at (x, y) leaves RES0 with the colour. What keeps the pixel is said by `DrawingChangesOnlyItsPixels` and
`OtherCommandsKeepEveryPixel`. -/
def Obligations.SetPointGetPointRoundTrip : Prop :=
  ∀ s : State, s.regs.orientValid = true → PanelReady s →
    s.regs.arg[0].toNat < s.area.w → s.regs.arg[1].toNat < s.area.h →
    ∃ t, exec .setPoint s = .next t ∧ PanelReady t ∧
      t.link.panel.pixel s.regs.arg[0] s.regs.arg[1] = some s.regs.arg[2] ∧
      ∀ u : State, u.link.bus = .display →
        u.link.panel.pixel s.regs.arg[0] s.regs.arg[1] = t.link.panel.pixel s.regs.arg[0] s.regs.arg[1] →
        u.regs.arg[0] = s.regs.arg[0] → u.regs.arg[1] = s.regs.arg[1] →
        ∃ v, exec .getPoint u = .next v ∧ v.regs.res0 = s.regs.arg[2]

/-- The invariant of the machine (R240, R63, R25, R242, R70, R72, R224) holds after reset, whatever the configuration. -/
def Obligations.InvariantHoldsAtReset : Prop :=
  Inv State.reset

/-- The invariant is kept by every step, from every state that has it. -/
def Obligations.EveryStepKeepsTheInvariant : Prop :=
  ∀ s t : State, Inv s → step s = .next t → Inv t

/-- R112: the host accesses of a listing line, performed while the DFC is idle, are the command executed with the
operands in ARG0 upward and the other ARG registers as they were. -/
def Obligations.ListingRunsTheCommand : Prop :=
  ∀ (i : Instr) (ops : List Word) (s t : State), ops.length ≤ 12 → s.regs.busy = false →
    exec i { s with regs := { s.regs with arg := Vector.ofFn fun k => ops.getD k.val s.regs.arg[k] } } = .next t →
    perform (listing i ops) s = t
end

