-- ==== Sys2Proof/Laws/Memory.lean ====
section
/-! SUPPORT. The laws of the pixel memory: reads after writes, the canonical form, the keys. -/

namespace Sys2Proof.Machine

/-- Two pixels with one key are one pixel. -/
theorem pixelKey_inj {x y x' y' : Word} (h : pixelKey x y = pixelKey x' y') : x = x' ∧ y = y' := by
  have hx := x.isLt
  have hx' := x'.isLt
  simp only [pixelKey] at h
  constructor <;> apply BitVec.eq_of_toNat_eq <;> omega

theorem findCell_insertCell_same (k : Nat) (v : Word) (cs : List (Nat × Word)) :
    findCell k (insertCell k v cs) = some v := by
  induction cs with
  | nil => simp [insertCell, findCell]
  | cons c cs ih =>
    obtain ⟨k', v'⟩ := c
    simp only [insertCell]
    split_ifs with h1 h2
    · simp [findCell]
    · simp [findCell]
    · simp [findCell, h2, ih]

theorem findCell_insertCell_other {k k₂ : Nat} (hne : k₂ ≠ k) (v : Word) (cs : List (Nat × Word)) :
    findCell k₂ (insertCell k v cs) = findCell k₂ cs := by
  induction cs with
  | nil => simp [insertCell, findCell, hne]
  | cons c cs ih =>
    obtain ⟨k', v'⟩ := c
    simp only [insertCell]
    split_ifs with h1 h2
    · simp [findCell, hne]
    · subst h2; simp [findCell, hne]
    · simp [findCell, ih]

/-- A read after a write of the same cell gives the value written. -/
@[simp] theorem read_write_same (m : Memory) (k : Nat) (v : Word) : (m.write k v).read k = some v :=
  findCell_insertCell_same k v m.cells

/-- A write leaves every other cell alone. -/
theorem read_write_other (m : Memory) {k k₂ : Nat} (hne : k₂ ≠ k) (v : Word) :
    (m.write k v).read k₂ = m.read k₂ :=
  findCell_insertCell_other hne v m.cells

/-- The cells after a write are the cell written and old ones. -/
theorem mem_insertCell {k : Nat} {v : Word} {cs : List (Nat × Word)} {c : Nat × Word}
    (h : c ∈ insertCell k v cs) : c = (k, v) ∨ c ∈ cs := by
  induction cs with
  | nil => simpa [insertCell] using h
  | cons d cs ih =>
    simp only [insertCell] at h
    split_ifs at h with h1 h2
    · simpa using h
    · simp only [List.mem_cons] at h ⊢; tauto
    · simp only [List.mem_cons] at h ⊢
      rcases h with h | h
      · exact .inr (.inl h)
      · rcases ih h with h | h
        · exact .inl h
        · exact .inr (.inr h)

/-- A write keeps the canonical form. -/
theorem write_wf {m : Memory} (h : m.wf) (k : Nat) (v : Word) : (m.write k v).wf := by
  obtain ⟨cs⟩ := m
  simp only [Memory.wf, Memory.write] at h ⊢
  induction cs with
  | nil => simp [insertCell]
  | cons c cs ih =>
    obtain ⟨k', v'⟩ := c
    simp only [List.pairwise_cons] at h
    simp only [insertCell]
    split_ifs with h1 h2
    · refine List.pairwise_cons.2 ⟨fun d hd => ?_, List.pairwise_cons.2 h⟩
      rcases List.mem_cons.1 hd with rfl | hd
      · exact h1
      · exact h1.trans (h.1 d hd)
    · subst h2; exact List.pairwise_cons.2 ⟨h.1, h.2⟩
    · refine List.pairwise_cons.2 ⟨fun d hd => ?_, ih h.2⟩
      rcases mem_insertCell hd with rfl | hd
      · exact lt_of_le_of_ne (not_lt.1 h1) (fun e => h2 e.symm)
      · exact h.1 d hd

/-- The memory in which no cell is known has the canonical form. -/
theorem unknown_wf : Memory.unknown.wf := List.Pairwise.nil

/-- The memory at reset has the canonical form. -/
theorem reset_memory_wf : State.reset.link.panel.gram.wf := List.Pairwise.nil

end Sys2Proof.Machine
end

