-- ==== Sys2Proof/Laws/Link.lean ====
section
/-! SUPPORT. What the frame-level operations can do (20_memory.md R61 to R65, 40_register_protocol.md R121 to R125):
the bus stays, the event list grows by the frames sent, the panel receives them. -/

namespace Sys2Proof.Machine

/-- The three start bytes are pairwise distinct for every configuration (R106). -/
theorem sbWI_ne_sbWD (c : Cfg) : sbWI c ≠ sbWD c := by
  have h : ∀ (p : BitVec 5) (r w z : BitVec 1), (p ++ ~~~ r ++ ~~~ w ++ z : BitVec 8) ≠ p ++ r ++ ~~~ w ++ z := by
    decide
  exact h _ _ _ _

theorem sbWD_ne_sbRD (c : Cfg) : sbWD c ≠ sbRD c := by
  have h : ∀ (p : BitVec 5) (r w z : BitVec 1), (p ++ r ++ ~~~ w ++ z : BitVec 8) ≠ p ++ r ++ w ++ z := by
    decide
  exact h _ _ _ _

theorem sbWI_ne_sbRD (c : Cfg) : sbWI c ≠ sbRD c := by
  have h : ∀ (p : BitVec 5) (r w z : BitVec 1), (p ++ ~~~ r ++ ~~~ w ++ z : BitVec 8) ≠ p ++ r ++ w ++ z := by
    decide
  exact h _ _ _ _

/-- Splitting a word into its bytes and joining them again (R69). -/
@[simp] theorem joinBytes_hi_lo (v : Word) : joinBytes (hiByte v) (loByte v) = v := by
  apply BitVec.eq_of_toNat_eq
  simp only [joinBytes, hiByte, loByte, BitVec.toNat_append, BitVec.extractLsb'_toNat, Nat.shiftRight_zero]
  rw [← Nat.shiftLeft_add_eq_or_of_lt (by omega)]
  have := v.isLt
  simp only [Nat.shiftRight_eq_div_pow, Nat.shiftLeft_eq]
  omega

@[simp] theorem frameKind_WI (c : Cfg) (a : Byte) : frameKind c (frameWI c a) = .index a := by
  simp [frameKind, frameWI]

@[simp] theorem frameKind_WD (c : Cfg) (v : Word) : frameKind c (frameWD c v) = .data v := by
  simp [frameKind, frameWD, (sbWI_ne_sbWD c).symm]

@[simp] theorem frameKind_RD (c : Cfg) : frameKind c (frameRD c) = .read := by
  simp [frameKind, frameRD]

/-- Only a four-byte frame is a read (R110). -/
theorem frameKind_read_length {c : Cfg} {tx : List Byte} (h : frameKind c tx = .read) : tx.length = 4 := by
  unfold frameKind at h
  split at h
  · split_ifs at h
  · rfl
  · cases h

theorem drawBytes_length (n : Nat) (e : Env) : (e.drawBytes n).1.length = n := by
  induction n generalizing e with
  | zero => rfl
  | succ n ih => simp [Env.drawBytes, ih]

/-- A frame receives as many bytes as it sends (R62). -/
theorem answer_length (c : Cfg) (tx : List Byte) (l : Link) : (l.answer c tx).1.length = tx.length := by
  unfold Link.answer
  cases h : l.kind c tx with
  | read =>
    have h4 : tx.length = 4 := by
      apply frameKind_read_length (c := c)
      unfold Link.kind at h
      split_ifs at h
      exact h
    simp [drawBytes_length, h4]
  | index | data | alien => simp [drawBytes_length]

/-- Everything a frame can do (R61, R62). -/
theorem frame_spec (c : Cfg) (tx : List Byte) (l : Link) :
    ∃ rx env, rx.length = tx.length ∧
      l.frame c tx = (rx, { trace := .xchg tx rx :: l.trace, bus := l.bus,
                            panel := l.panel.receive c (l.kind c tx), env := env }) :=
  ⟨(l.answer c tx).1, (l.answer c tx).2, answer_length c tx l, rfl⟩

/-- The event of a frame returns as many bytes as were sent, three or four (R62, R110); other events are free. -/
def Event.framed : Event → Prop
  | .xchg tx rx => rx.length = tx.length ∧ (tx.length = 3 ∨ tx.length = 4)
  | .gpioRead _ => True
  | .touchXchg _ _ => True

/-- From `l` to `m` the frames `txs` were sent: the bus stays, and the event list grew by one well-formed `Xchg`
for each frame. -/
structure Sent (l m : Link) (txs : List (List Byte)) : Prop where
  bus : m.bus = l.bus
  events : ∃ evs, m.trace.reverse = l.trace.reverse ++ evs ∧ evs.map Event.sent = txs.map some ∧
    ∀ e ∈ evs, e.framed

theorem Sent.refl (l : Link) : Sent l l [] := ⟨rfl, [], by simp⟩

theorem Sent.trans {l m n : Link} {a b : List (List Byte)} (h : Sent l m a) (k : Sent m n b) :
    Sent l n (a ++ b) := by
  obtain ⟨hb, ea, ha, hs, hf⟩ := h
  obtain ⟨kb, eb, ka, ks, kf⟩ := k
  refine ⟨kb.trans hb, ea ++ eb, by simp [ka, ha], by simp [hs, ks], fun e he => ?_⟩
  rcases List.mem_append.1 he with h | h
  · exact hf e h
  · exact kf e h

theorem frame_sent (c : Cfg) (tx : List Byte) (l : Link) (h : tx.length = 3 ∨ tx.length = 4) :
    Sent l (l.frame c tx).2 [tx] := by
  obtain ⟨rx, env, hlen, heq⟩ := frame_spec c tx l
  rw [heq]
  exact ⟨rfl, [.xchg tx rx], by simp, by simp [Event.sent], by simp [Event.framed, hlen, h]⟩

theorem writeIndex_sent (c : Cfg) (a : Byte) (l : Link) : Sent l (l.writeIndex c a) [frameWI c a] :=
  frame_sent c _ l (.inl rfl)

theorem writeData_sent (c : Cfg) (v : Word) (l : Link) : Sent l (l.writeData c v) [frameWD c v] :=
  frame_sent c _ l (.inl rfl)

theorem readData_sent (c : Cfg) (l : Link) : Sent l (l.readData c).2 [frameRD c] :=
  frame_sent c _ l (.inr rfl)

theorem memWrite_sent (c : Cfg) (a : Byte) (v : Word) (l : Link) :
    Sent l (l.memWrite c a v) [frameWI c a, frameWD c v] :=
  (writeIndex_sent c a l).trans (writeData_sent c v _)

theorem memRead_sent (c : Cfg) (a : Byte) (l : Link) : Sent l (l.memRead c a).2 [frameWI c a, frameRD c] :=
  (writeIndex_sent c a l).trans (readData_sent c _)

theorem setCursor_sent (c : Cfg) (x y : Word) (l : Link) : Sent l (l.setCursor c x y) (cursorFrames c x y) :=
  (memWrite_sent c 0x20 x l).trans (memWrite_sent c 0x21 y _)

/-- The bounds check of `Plot` (R142), as a proposition. -/
theorem inside_iff (g : Geom) (d : Dot) :
    d.inside g = true ↔ 0 ≤ d.x ∧ d.x < g.w ∧ 0 ≤ d.y ∧ d.y < g.h := by
  simp [Dot.inside, and_assoc]

theorem plot_sent (c : Cfg) (g : Geom) (d : Dot) (l : Link) : Sent l (l.plot c g d) (plotFrames c g d) := by
  unfold Link.plot plotFrames
  by_cases h : d.inside g = true
  · rw [if_pos h, if_pos ((inside_iff g d).1 h)]
    exact (setCursor_sent c _ _ l).trans (memWrite_sent c 0x22 d.c _)
  · rw [if_neg h, if_neg (fun k => h ((inside_iff g d).2 k))]
    exact Sent.refl l

theorem plotAll_sent (c : Cfg) (g : Geom) (ds : List Dot) (l : Link) :
    Sent l (l.plotAll c g ds) (ds.flatMap (plotFrames c g)) := by
  induction ds generalizing l with
  | nil => exact Sent.refl l
  | cons d ds ih => exact (plot_sent c g d l).trans (ih _)

theorem stream_sent (c : Cfg) (v : Word) (n : Nat) (l : Link) :
    Sent l (Link.stream c v n l) (List.replicate n (frameWD c v)) := by
  induction n generalizing l with
  | zero => exact Sent.refl l
  | succ n ih => exact (writeData_sent c v l).trans (ih _)

theorem clear_sent (c : Cfg) (g : Geom) (v : Word) (l : Link) :
    Sent l (l.clear c g v)
      (plotFrames c g { x := 0, y := 0, c := v } ++ List.replicate (g.w * g.h - 1) (frameWD c v)) :=
  (plot_sent c g _ l).trans (stream_sent c v _ _)

theorem readPixel_sent (c : Cfg) (x y : Word) (l : Link) :
    Sent l (l.readPixel c x y).2 (cursorFrames c x y ++ [frameWI c 0x22, frameRD c, frameRD c]) := by
  have h := (((setCursor_sent c x y l).trans (writeIndex_sent c 0x22 _)).trans
    (readData_sent c _)).trans (readData_sent c _)
  simp only [List.append_assoc, List.cons_append, List.nil_append] at h
  exact h

/-- What the sent frames say of two states. -/
theorem Sent.emits {s t : State} {txs : List (List Byte)} (h : Sent s.link t.link txs) : Emits s t txs := by
  obtain ⟨_, evs, h1, h2, _⟩ := h
  exact ⟨evs, h1, h2⟩

/-- Everything a read frame can do: four bytes come back, and the value is the last two (R62, R109, R123). -/
theorem readData_spec (c : Cfg) (l : Link) : ∃ a b h lo env,
    l.frame c (frameRD c) = ([a, b, h, lo],
      { trace := .xchg (frameRD c) [a, b, h, lo] :: l.trace, bus := l.bus,
        panel := l.panel.receive c (l.kind c (frameRD c)), env := env }) ∧
    l.readData c = (h ++ lo,
      { trace := .xchg (frameRD c) [a, b, h, lo] :: l.trace, bus := l.bus,
        panel := l.panel.receive c (l.kind c (frameRD c)), env := env }) := by
  obtain ⟨rx, env, h1, h2⟩ := frame_spec c (frameRD c) l
  match rx, h1 with
  | [a, b, h, lo], _ =>
    refine ⟨a, b, h, lo, env, h2, ?_⟩
    change (joinBytes ((l.frame c (frameRD c)).1.getD 2 0) ((l.frame c (frameRD c)).1.getD 3 0),
      (l.frame c (frameRD c)).2) = _
    rw [h2]
    rfl

/-! ### What the panel receives when the frames reach it -/

/-- What a frame does to the panel is what the panel receives of it (R62). -/
theorem frame_panel (c : Cfg) (tx : List Byte) (l : Link) :
    (l.frame c tx).2.panel = l.panel.receive c (l.kind c tx) := rfl

/-- On the display side of the bus a frame is what its bytes say. -/
theorem kind_display (c : Cfg) (tx : List Byte) {l : Link} (h : l.bus = .display) :
    l.kind c tx = frameKind c tx := if_pos h

theorem writeIndex_panel {c : Cfg} {l : Link} (h : l.bus = .display) (a : Byte) :
    (l.writeIndex c a).panel = l.panel.receive c (.index a) := by
  rw [← frameKind_WI c a, ← kind_display c _ h]; rfl

theorem writeData_panel {c : Cfg} {l : Link} (h : l.bus = .display) (v : Word) :
    (l.writeData c v).panel = l.panel.receive c (.data v) := by
  rw [← frameKind_WD c v, ← kind_display c _ h]; rfl

theorem readData_panel {c : Cfg} {l : Link} (h : l.bus = .display) :
    (l.readData c).2.panel = l.panel.receive c .read := by
  rw [← frameKind_RD c, ← kind_display c _ h]; rfl

/-- The value of a read the panel contract fixes (R73). -/
theorem readData_value {c : Cfg} {l : Link} {v : Word} (h : l.bus = .display) (hv : l.panel.readValue = some v) :
    (l.readData c).1 = v := by
  have hk : l.kind c (frameRD c) = .read := by rw [kind_display c _ h, frameKind_RD]
  obtain ⟨a, b, hab⟩ : ∃ a b, (l.env.drawBytes 2).1 = [a, b] := by
    match hm : (l.env.drawBytes 2).1, drawBytes_length 2 l.env with
    | [a, b], _ => exact ⟨a, b, rfl⟩
  have hrx : (l.answer c (frameRD c)).1 = [a, b, hiByte v, loByte v] := by
    simp [Link.answer, hk, hv, hab]
  change joinBytes ((l.answer c (frameRD c)).1.getD 2 0) ((l.answer c (frameRD c)).1.getD 3 0) = v
  simp [hrx]

/-- A frame on the touch side of the bus never reaches the panel (log entry 9). -/
theorem kind_touch {c : Cfg} {tx : List Byte} {l : Link} (h : l.bus ≠ .display) : l.kind c tx = .alien := by
  simp [Link.kind, h]

@[simp] theorem tpReady_bus (l : Link) : l.tpReady.2.bus = l.bus := rfl
@[simp] theorem tpReady_panel (l : Link) : l.tpReady.2.panel = l.panel := rfl
@[simp] theorem tpReady_trace (l : Link) : l.tpReady.2.trace = .gpioRead l.tpReady.1 :: l.trace := rfl
@[simp] theorem touchRead_bus (ch : Channel) (l : Link) : (l.touchRead ch).2.bus = .display := rfl
@[simp] theorem touchRead_panel (ch : Channel) (l : Link) : (l.touchRead ch).2.panel = l.panel := rfl
@[simp] theorem touchRead_trace (ch : Channel) (l : Link) :
    (l.touchRead ch).2.trace = .touchXchg ch (l.touchRead ch).1 :: l.trace := rfl

end Sys2Proof.Machine
end

