-- ==== Sys2Proof/Laws/Panel.lean ====
section
/-! SUPPORT. What plots, streams and reads do to a panel whose contract is in force (20_memory.md R70 to R74), and
that every frame keeps the panel well formed. -/

namespace Sys2Proof.Machine

/-! ### The addressable area -/

theorem dims_bounds (c : Cfg) (o : Orient) :
    1 ≤ (dims c o).w ∧ (dims c o).w ≤ 32767 ∧ 1 ≤ (dims c o).h ∧ (dims c o).h ≤ 32767 := by
  have h1 := c.wSpan.isLt
  have h2 := c.hSpan.isLt
  cases o <;> simp only [dims, wNative, hNative] <;> omega

theorem area_bounds (s : State) :
    1 ≤ s.area.w ∧ s.area.w ≤ 32767 ∧ 1 ≤ s.area.h ∧ s.area.h ≤ 32767 := dims_bounds s.cfg s.regs.orient

/-- A coordinate inside the area keeps its value as a word. -/
theorem u16_toNat {v : Int} (h0 : 0 ≤ v) (h1 : v < 65536) : ((u16 v).toNat : Int) = v := by
  simp only [u16, BitVec.toNat_ofInt]
  omega

@[simp] theorem u16_natCast_toNat (x : Word) : u16 (x.toNat : Int) = x := by
  apply BitVec.eq_of_toNat_eq
  have := u16_toNat (v := (x.toNat : Int)) (by omega) (by have := x.isLt; omega)
  omega

/-! ### Single frames on a panel in force -/

theorem receive_alive {c : Cfg} {p : Panel} (h : p.dead = false) (k : FrameKind) :
    p.receive c k = match k with
      | .index a => p.indexWrite a
      | .data v => p.dataWrite c v
      | .read => p.latch
      | .alien => p.kill := by
  cases k <;> simp [Panel.receive, h]

@[simp] theorem indexWrite_dead (p : Panel) (a : Byte) : (p.indexWrite a).dead = p.dead := rfl
@[simp] theorem indexWrite_ir (p : Panel) (a : Byte) : (p.indexWrite a).ir = a := rfl
@[simp] theorem indexWrite_geom (p : Panel) (a : Byte) : (p.indexWrite a).geom = p.geom := rfl

/-- A data write with the index at 0x22 is a pixel write (R72). -/
theorem dataWrite_pixel {c : Cfg} {p : Panel} (h : p.ir = 0x22) (v : Word) : p.dataWrite c v = p.pixelWrite v := by
  simp [Panel.dataWrite, h]

/-- A dead panel stays as it is (log entry 6). -/
theorem receive_dead {c : Cfg} {p : Panel} (h : p.dead = true) (k : FrameKind) : p.receive c k = p := by
  simp [Panel.receive, h]

/-- Writing the cursor registers (R72, R140). -/
theorem setCursor_panel {c : Cfg} {l : Link} (hb : l.bus = .display) (hd : l.panel.dead = false) (x y : Word) :
    (l.setCursor c x y).panel = { l.panel with ir := 0x21, ax := x, ay := y, rdv := false } := by
  have b1 := (writeIndex_sent c 0x20 l).bus.trans hb
  have b2 := (writeData_sent c x (l.writeIndex c 0x20)).bus.trans b1
  have b3 := (writeIndex_sent c 0x21 ((l.writeIndex c 0x20).writeData c x)).bus.trans b2
  simp only [Link.setCursor, Link.memWrite]
  rw [writeData_panel b3, writeIndex_panel b2, writeData_panel b1, writeIndex_panel hb]
  simp [Panel.receive, Panel.indexWrite, Panel.dataWrite, hd]

/-- A data write to the pixel register with the cursor inside the geometry (R72, R74). -/
theorem pixelWrite_inside {p : Panel} {g : Geom} (hg : p.geom = some g) (h : p.ax.toNat < g.w ∧ p.ay.toNat < g.h)
    (v : Word) :
    p.pixelWrite v =
      { ({ p with gram := p.gram.write (pixelKey p.ax p.ay) v } : Panel).advance g with rdv := false } := by
  simp [Panel.pixelWrite, hg, Panel.cursorInside, h.1, h.2]

/-- What a plot inside the area does to a ready panel: the cell, the cursor past it, the index at 0x22
(R72, R74, R142). -/
theorem plot_panel {c : Cfg} {g : Geom} {l : Link} {d : Dot} (hb : l.bus = .display) (hd : l.panel.dead = false)
    (hg : l.panel.geom = some g) (hw : g.w ≤ 65536) (hh : g.h ≤ 65536) (hi : d.inside g = true) :
    (l.plot c g d).panel =
      { ({ l.panel with
            ir := 0x22, ax := u16 d.x, ay := u16 d.y
            gram := l.panel.gram.write (pixelKey (u16 d.x) (u16 d.y)) d.c } : Panel).advance g with rdv := false } := by
  obtain ⟨h1, h2, h3, h4⟩ := (inside_iff g d).1 hi
  have hx := u16_toNat h1 (by omega)
  have hy := u16_toNat h3 (by omega)
  have b1 := (setCursor_sent c (u16 d.x) (u16 d.y) l).bus.trans hb
  have b2 := (writeIndex_sent c 0x22 (l.setCursor c (u16 d.x) (u16 d.y))).bus.trans b1
  simp only [Link.plot, hi, if_true, Link.memWrite]
  rw [writeData_panel b2, writeIndex_panel b1, setCursor_panel hb hd,
    receive_alive (p := { l.panel with ir := 0x21, ax := u16 d.x, ay := u16 d.y, rdv := false }) hd,
    receive_alive (by exact hd)]
  simp only
  rw [dataWrite_pixel rfl, pixelWrite_inside (g := g) (by exact hg)
    (by change (u16 d.x).toNat < g.w ∧ (u16 d.y).toNat < g.h; omega)]
  rfl

/-- A panel whose contract is in force in the geometry `g`. -/
structure Ready (g : Geom) (l : Link) : Prop where
  bus : l.bus = .display
  alive : l.panel.dead = false
  geom : l.panel.geom = some g

theorem PanelReady.ready {s : State} (h : PanelReady s) : Ready s.area s.link := ⟨h.1.1, h.1.2, h.2⟩

theorem pixel_ready {g : Geom} {l : Link} (h : Ready g l) (x y : Word) :
    l.panel.pixel x y = if x.toNat < g.w ∧ y.toNat < g.h then some (l.panel.cell x y) else none := by
  simp [Panel.pixel, h.geom, h.alive]

theorem cell_write (p : Panel) (k : Word × Word) (v : Word) (x y : Word) :
    ({ p with gram := p.gram.write (pixelKey k.1 k.2) v } : Panel).cell x y =
      if (x, y) = k then v else p.cell x y := by
  simp only [Panel.cell]
  split_ifs with h
  · subst h; simp
  · rw [read_write_other _ (fun e => h (by obtain ⟨a, b⟩ := pixelKey_inj e; rw [a, b]))]

/-- A plot keeps a ready panel ready and changes one pixel at most (R142). -/
theorem plot_ready {c : Cfg} {g : Geom} {l : Link} (h : Ready g l) (hw : g.w ≤ 65536) (hh : g.h ≤ 65536) (d : Dot) :
    Ready g (l.plot c g d) ∧
    ∀ x y : Word, x.toNat < g.w → y.toNat < g.h →
      (l.plot c g d).panel.pixel x y =
        if d.x = (x.toNat : Int) ∧ d.y = (y.toNat : Int) then some d.c else l.panel.pixel x y := by
  by_cases hi : d.inside g = true
  · have hp := plot_panel (c := c) h.bus h.alive h.geom hw hh hi
    obtain ⟨h1, h2, h3, h4⟩ := (inside_iff g d).1 hi
    have hx := u16_toNat h1 (by omega)
    have hy := u16_toNat h3 (by omega)
    have hr : Ready g (l.plot c g d) :=
      ⟨(plot_sent c g d l).bus.trans h.bus, by rw [hp]; exact h.alive, by rw [hp]; exact h.geom⟩
    refine ⟨hr, fun x y kx ky => ?_⟩
    have hc := cell_write l.panel (u16 d.x, u16 d.y) d.c x y
    have hl : (l.plot c g d).panel.cell x y = if (x, y) = (u16 d.x, u16 d.y) then d.c else l.panel.cell x y := by
      rw [← hc, hp]; rfl
    simp only [pixel_ready hr, pixel_ready h, kx, ky, and_self, if_true, hl]
    by_cases e : (x, y) = (u16 d.x, u16 d.y)
    · obtain ⟨e1, e2⟩ := Prod.mk.inj e
      simp only [e1, e2, hx, hy, and_self, if_true]
    · rw [if_neg e, if_neg]
      rintro ⟨e1, e2⟩
      exact e (by rw [e1, e2]; simp)
  · have hn : l.plot c g d = l := by simp [Link.plot, hi]
    rw [hn]
    refine ⟨h, fun x y kx ky => ?_⟩
    rw [if_neg]
    rintro ⟨e1, e2⟩
    exact hi ((inside_iff g d).2 ⟨by omega, by omega, by omega, by omega⟩)

/-- Plots keep a ready panel ready, and a pixel shows the last dot put on it (R168). -/
theorem plotAll_ready {c : Cfg} {g : Geom} (hw : g.w ≤ 65536) (hh : g.h ≤ 65536) (ds : List Dot) {l : Link}
    (h : Ready g l) :
    Ready g (l.plotAll c g ds) ∧
    ∀ x y : Word, x.toNat < g.w → y.toNat < g.h →
      (l.plotAll c g ds).panel.pixel x y = (lastColour ds x y).or (l.panel.pixel x y) := by
  induction ds generalizing l with
  | nil => exact ⟨h, fun x y _ _ => by simp [Link.plotAll, lastColour]⟩
  | cons d ds ih =>
    obtain ⟨hr, hp⟩ := plot_ready (c := c) h hw hh d
    obtain ⟨hr2, hp2⟩ := ih hr
    refine ⟨hr2, fun x y kx ky => ?_⟩
    have e := hp2 x y kx ky
    change ((l.plot c g d).plotAll c g ds).panel.pixel x y = _
    rw [e, hp x y kx ky]
    simp only [lastColour, List.reverse_cons, List.find?_append]
    cases hf : List.find? (fun d => d.x == (x.toNat : Int) && d.y == (y.toNat : Int)) ds.reverse with
    | some b => simp
    | none => simp only [Option.none_or, List.find?_singleton]; by_cases k : d.x = (x.toNat : Int) ∧ d.y = (y.toNat : Int) <;> simp [k]

/-- What the two reads of `ReadPixel` leave of a panel in force: the index at 0x22, the cursor at the operands, whatever
they are, and the read latch valid (R73, R77, R143). -/
theorem readPixel_panel {c : Cfg} {l : Link} (hb : l.bus = .display) (hd : l.panel.dead = false) (x y : Word) :
    (l.readPixel c x y).2.panel = { l.panel with ir := 0x22, ax := x, ay := y, rdv := true } := by
  have b1 := (setCursor_sent c x y l).bus.trans hb
  have b2 := (writeIndex_sent c 0x22 (l.setCursor c x y)).bus.trans b1
  have b3 := (readData_sent c ((l.setCursor c x y).writeIndex c 0x22)).bus.trans b2
  simp only [Link.readPixel]
  rw [readData_panel b3, readData_panel b2, writeIndex_panel b1, setCursor_panel hb hd]
  simp [Panel.receive, Panel.indexWrite, Panel.latch, hd]

end Sys2Proof.Machine
end

