-- ==== Sys2Proof/Laws/Calibration.lean ====
section
/-! SUPPORT. The magnitudes of the calibration matrix and that its registers hold it exactly (45_calibration.md R221 to R224). -/

namespace Sys2Proof.Machine

/-- A signed number in range is held exactly by a matrix register (R224). -/
theorem i64_toInt {v : Int} (h : v.natAbs < 2 ^ 63) : (i64 v).toInt = v := by
  simp only [i64, BitVec.toInt_ofInt]
  exact Int.bmod_eq_of_le (by omega) (by omega)

/-- The magnitude of a product. -/
theorem mul_natAbs_le {a b : Int} {m n : Nat} (ha : a.natAbs ≤ m) (hb : b.natAbs ≤ n) : (a * b).natAbs ≤ m * n := by
  rw [Int.natAbs_mul]; exact Nat.mul_le_mul ha hb

/-- The range of an operand (R102). -/
theorem word_int (w : Word) : 0 ≤ (w.toNat : Int) ∧ (w.toNat : Int) ≤ 65535 := by
  have := w.isLt; omega

/-- The magnitude of the divider (R224). -/
theorem calDivider_bound {a b c d e f : Int} (ha : 0 ≤ a ∧ a ≤ 65535) (hb : 0 ≤ b ∧ b ≤ 65535) (hc : 0 ≤ c ∧ c ≤ 65535)
    (hd : 0 ≤ d ∧ d ≤ 65535) (he : 0 ≤ e ∧ e ≤ 65535) (hf : 0 ≤ f ∧ f ≤ 65535) :
    (calDivider a b c d e f).natAbs < 2 ^ 33 := by
  have h1 := mul_natAbs_le (a := a - e) (b := d - f) (m := 65535) (n := 65535) (by omega) (by omega)
  have h2 := mul_natAbs_le (a := c - e) (b := b - f) (m := 65535) (n := 65535) (by omega) (by omega)
  have := Int.natAbs_sub_le ((a - e) * (d - f)) ((c - e) * (b - f))
  simp only [calDivider]; omega

/-- `An` is the divider of other points (R222). -/
theorem calA_eq (p0 p1 p2 y0 y1 y2 : Int) : calA p0 p1 p2 y0 y1 y2 = calDivider p0 y0 p1 y1 p2 y2 := rfl

/-- `Bn` is the divider of other points (R222). -/
theorem calB_eq (p0 p1 p2 x0 x1 x2 : Int) : calB p0 p1 p2 x0 x1 x2 = calDivider x0 p0 x1 p1 x2 p2 := by
  simp only [calB, calDivider]; ring

/-- The magnitude of `Cn` (R224). -/
theorem calC_bound {p0 p1 p2 x0 y0 x1 y1 x2 y2 : Int} (h0 : 0 ≤ p0 ∧ p0 ≤ 65535) (h1 : 0 ≤ p1 ∧ p1 ≤ 65535)
    (h2 : 0 ≤ p2 ∧ p2 ≤ 65535) (a0 : 0 ≤ x0 ∧ x0 ≤ 65535) (b0 : 0 ≤ y0 ∧ y0 ≤ 65535) (a1 : 0 ≤ x1 ∧ x1 ≤ 65535)
    (b1 : 0 ≤ y1 ∧ y1 ≤ 65535) (a2 : 0 ≤ x2 ∧ x2 ≤ 65535) (b2 : 0 ≤ y2 ∧ y2 ≤ 65535) :
    (calC p0 p1 p2 x0 y0 x1 y1 x2 y2).natAbs < 3 * 2 ^ 48 := by
  have key : ∀ {a b c d y : Int}, (0 ≤ a ∧ a ≤ 65535) → (0 ≤ b ∧ b ≤ 65535) → (0 ≤ c ∧ c ≤ 65535) →
      (0 ≤ d ∧ d ≤ 65535) → (0 ≤ y ∧ y ≤ 65535) → ((a * b - c * d) * y).natAbs ≤ 65535 * 65535 * 65535 := by
    intro a b c d y ha hb hc hd hy
    refine mul_natAbs_le ?_ (by omega)
    have q1 : 0 ≤ a * b := mul_nonneg ha.1 hb.1
    have q2 : 0 ≤ c * d := mul_nonneg hc.1 hd.1
    have q3 := mul_natAbs_le (a := a) (b := b) (m := 65535) (n := 65535) (by omega) (by omega)
    have q4 := mul_natAbs_le (a := c) (b := d) (m := 65535) (n := 65535) (by omega) (by omega)
    omega
  have k1 := key a2 h1 a1 h2 b0
  have k2 := key a0 h2 a2 h0 b1
  have k3 := key a1 h0 a0 h1 b2
  simp only [calC]; omega

/-- The matrix registers hold the seven integers exactly (R222, R224). -/
theorem solvedRegs_exact (r : Regs) :
    (solvedRegs r).divider.toInt = r.solveDivider ∧
    (solvedRegs r).an.toInt = calA (r.xInt 0) (r.xInt 2) (r.xInt 4) (r.xInt 7) (r.xInt 9) (r.xInt 11) ∧
    (solvedRegs r).bn.toInt = calB (r.xInt 0) (r.xInt 2) (r.xInt 4) (r.xInt 6) (r.xInt 8) (r.xInt 10) ∧
    (solvedRegs r).cn.toInt = calC (r.xInt 0) (r.xInt 2) (r.xInt 4) (r.xInt 6) (r.xInt 7) (r.xInt 8) (r.xInt 9)
      (r.xInt 10) (r.xInt 11) ∧
    (solvedRegs r).dn.toInt = calA (r.xInt 1) (r.xInt 3) (r.xInt 5) (r.xInt 7) (r.xInt 9) (r.xInt 11) ∧
    (solvedRegs r).en.toInt = calB (r.xInt 1) (r.xInt 3) (r.xInt 5) (r.xInt 6) (r.xInt 8) (r.xInt 10) ∧
    (solvedRegs r).fn.toInt = calC (r.xInt 1) (r.xInt 3) (r.xInt 5) (r.xInt 6) (r.xInt 7) (r.xInt 8) (r.xInt 9)
      (r.xInt 10) (r.xInt 11) := by
  have b : ∀ i, 0 ≤ r.xInt i ∧ r.xInt i ≤ 65535 := fun i => word_int _
  have hd : ∀ i j k l m n, (calDivider (r.xInt i) (r.xInt j) (r.xInt k) (r.xInt l) (r.xInt m) (r.xInt n)).natAbs < 2 ^ 63 :=
    fun _ _ _ _ _ _ => lt_trans (calDivider_bound (b _) (b _) (b _) (b _) (b _) (b _)) (by norm_num)
  refine ⟨i64_toInt (hd _ _ _ _ _ _), ?_, ?_, ?_, ?_, ?_, ?_⟩
  · exact i64_toInt (by rw [calA_eq]; exact hd _ _ _ _ _ _)
  · exact i64_toInt (by rw [calB_eq]; exact hd _ _ _ _ _ _)
  · exact i64_toInt (lt_trans (calC_bound (b _) (b _) (b _) (b _) (b _) (b _) (b _) (b _) (b _)) (by norm_num))
  · exact i64_toInt (by rw [calA_eq]; exact hd _ _ _ _ _ _)
  · exact i64_toInt (by rw [calB_eq]; exact hd _ _ _ _ _ _)
  · exact i64_toInt (lt_trans (calC_bound (b _) (b _) (b _) (b _) (b _) (b _) (b _) (b _) (b _)) (by norm_num))

/-- The range test of a quotient (R223). -/
theorem fitsWord_iff (q : Int) : fitsWord q = true ↔ 0 ≤ q ∧ q ≤ 65535 := by simp [fitsWord]

/-- Everything an apply can answer (R223). -/
theorem applyMatrix_spec (r : Regs) (xs ys : Word) :
    (r.divider = 0 → applyMatrix r xs ys = .error .degenerateCalibration) ∧
    (r.divider ≠ 0 →
      ¬ (0 ≤ r.quotX xs ys ∧ r.quotX xs ys ≤ 65535 ∧ 0 ≤ r.quotY xs ys ∧ r.quotY xs ys ≤ 65535) →
      applyMatrix r xs ys = .error .resultRange) ∧
    (∀ px py : Word, r.divider ≠ 0 → (px.toNat : Int) = r.quotX xs ys → (py.toNat : Int) = r.quotY xs ys →
      applyMatrix r xs ys = .ok (px, py)) := by
  refine ⟨fun h => by simp [applyMatrix, h], fun h k => ?_, fun px py h h1 h2 => ?_⟩
  · unfold applyMatrix; rw [if_neg h, if_neg]; simp only [Bool.and_eq_true, fitsWord_iff]; omega
  · unfold applyMatrix; have := px.isLt; have := py.isLt
    rw [if_neg h, if_pos]
    · rw [← h1, ← h2]; simp
    · simp only [Bool.and_eq_true, fitsWord_iff]; omega

end Sys2Proof.Machine
end

