-- ==== Sys2Proof/Laws/State.lean ====
section
/-! SUPPORT. One lemma per field per update of the state, and what the start, the end and an error of a command
leave (60_exceptions.md R240, R241). -/

namespace Sys2Proof.Machine

@[simp] theorem setLink_cfg (s : State) (l : Link) : (s.setLink l).cfg = s.cfg := rfl
@[simp] theorem setLink_regs (s : State) (l : Link) : (s.setLink l).regs = s.regs := rfl
@[simp] theorem setLink_link (s : State) (l : Link) : (s.setLink l).link = l := rfl
@[simp] theorem setLink_host (s : State) (l : Link) : (s.setLink l).host = s.host := rfl
@[simp] theorem setLink_reply (s : State) (l : Link) : (s.setLink l).reply = s.reply := rfl
@[simp] theorem setLink_area (s : State) (l : Link) : (s.setLink l).area = s.area := rfl
@[simp] theorem setLink_events (s : State) (l : Link) : (s.setLink l).events = l.trace.reverse := rfl
@[simp] theorem setLink_setLink (s : State) (l m : Link) : (s.setLink l).setLink m = s.setLink m := rfl
@[simp] theorem setLink_self (s : State) : s.setLink s.link = s := rfl

@[simp] theorem setRegs_cfg (s : State) (r : Regs) : (s.setRegs r).cfg = s.cfg := rfl
@[simp] theorem setRegs_regs (s : State) (r : Regs) : (s.setRegs r).regs = r := rfl
@[simp] theorem setRegs_link (s : State) (r : Regs) : (s.setRegs r).link = s.link := rfl
@[simp] theorem setRegs_host (s : State) (r : Regs) : (s.setRegs r).host = s.host := rfl
@[simp] theorem setRegs_reply (s : State) (r : Regs) : (s.setRegs r).reply = s.reply := rfl
@[simp] theorem setRegs_area (s : State) (r : Regs) : (s.setRegs r).area = dims s.cfg r.orient := rfl
@[simp] theorem setRegs_events (s : State) (r : Regs) : (s.setRegs r).events = s.events := rfl
@[simp] theorem setRegs_setRegs (s : State) (q r : Regs) : (s.setRegs q).setRegs r = s.setRegs r := rfl

@[simp] theorem draw_cfg (s : State) (ds : List Dot) : (s.draw ds).cfg = s.cfg := rfl
@[simp] theorem draw_regs (s : State) (ds : List Dot) : (s.draw ds).regs = s.regs := rfl
@[simp] theorem draw_link (s : State) (ds : List Dot) : (s.draw ds).link = s.link.plotAll s.cfg s.area ds := rfl
@[simp] theorem draw_host (s : State) (ds : List Dot) : (s.draw ds).host = s.host := rfl
@[simp] theorem draw_reply (s : State) (ds : List Dot) : (s.draw ds).reply = s.reply := rfl

@[simp] theorem beginCommand_cfg (s : State) : (beginCommand s).cfg = s.cfg := rfl
@[simp] theorem beginCommand_link (s : State) : (beginCommand s).link = s.link := rfl
@[simp] theorem beginCommand_host (s : State) : (beginCommand s).host = s.host := rfl
@[simp] theorem beginCommand_reply (s : State) : (beginCommand s).reply = s.reply := rfl
@[simp] theorem beginCommand_area (s : State) : (beginCommand s).area = s.area := rfl
@[simp] theorem beginCommand_regs (s : State) :
    (beginCommand s).regs = { s.regs with busy := true, err := false, errCode := 0 } := rfl

@[simp] theorem endCommand_cfg (s : State) : (endCommand s).cfg = s.cfg := rfl
@[simp] theorem endCommand_link (s : State) : (endCommand s).link = s.link := rfl
@[simp] theorem endCommand_host (s : State) : (endCommand s).host = s.host := rfl
@[simp] theorem endCommand_reply (s : State) : (endCommand s).reply = s.reply := rfl
@[simp] theorem endCommand_regs (s : State) : (endCommand s).regs = { s.regs with busy := false } := rfl

@[simp] theorem raiseErr_cfg (e : ErrCode) (s : State) : (raiseErr e s).cfg = s.cfg := rfl
@[simp] theorem raiseErr_link (e : ErrCode) (s : State) : (raiseErr e s).link = s.link := rfl
@[simp] theorem raiseErr_host (e : ErrCode) (s : State) : (raiseErr e s).host = s.host := rfl
@[simp] theorem raiseErr_reply (e : ErrCode) (s : State) : (raiseErr e s).reply = s.reply := rfl
@[simp] theorem raiseErr_regs (e : ErrCode) (s : State) :
    (raiseErr e s).regs = { s.regs with err := true, errCode := e.code, busy := false } := rfl

/-- A body that reaches its end (R240). -/
theorem command_ok {body : State → Ended} {s t : State} (h : body (beginCommand s) = .ok t) :
    command body s = endCommand t := by
  simp [command, h]

/-- A body that raises an error (R241). -/
theorem command_raised {body : State → Ended} {e : ErrCode} {s t : State}
    (h : body (beginCommand s) = .raised e t) : command body s = raiseErr e t := by
  simp [command, h]

/-- Everything a command can be: its body's end, or the error its body raised. -/
theorem command_cases (body : State → Ended) (s : State) :
    (∃ t, body (beginCommand s) = .ok t ∧ command body s = endCommand t) ∨
    (∃ e t, body (beginCommand s) = .raised e t ∧ command body s = raiseErr e t) := by
  cases h : body (beginCommand s) with
  | ok t => exact .inl ⟨t, rfl, command_ok h⟩
  | raised e t => exact .inr ⟨e, t, rfl, command_raised h⟩

/-- The gate lets a command through when the orientation is set (R141). -/
theorem command_gated_ok {body : State → State} {s : State} (h : s.regs.orientValid = true) :
    command (gated body) s = endCommand (body (beginCommand s)) :=
  command_ok (by simp [gated, h])

/-- The gate stops a command before any effect when the orientation is not set (R141). -/
theorem command_gated_closed {body : State → State} {s : State} (h : s.regs.orientValid = false) :
    command (gated body) s = s.setRegs (failedRegs .notInit s.regs) := by
  rw [command_raised (e := .notInit) (t := beginCommand s) (by simp [gated, h])]
  rfl

/-- No cause code is 0, and none is above 8 (R242). -/
theorem code_range (e : ErrCode) : e.code ≠ 0 ∧ e.code.toNat ≤ 8 := by
  cases e <;> decide

/-- A state is its registers, its transport side and the three fields no command writes. -/
theorem state_eq {s t : State} (h1 : t.cfg = s.cfg) (h2 : t.host = s.host) (h3 : t.reply = s.reply) :
    t = { s with regs := t.regs, link := t.link } := by
  obtain ⟨_, _, _, _, _⟩ := s
  obtain ⟨_, _, _, _, _⟩ := t
  simp only at h1 h2 h3
  subst h1 h2 h3
  rfl

end Sys2Proof.Machine
end

