-- ==== Sys2Proof/Laws/Exec.lean ====
section
/-! SUPPORT. Said once: every meaning is `command` of one body (60_exceptions.md R240), and what a body leaves alone. -/

namespace Sys2Proof.Machine

/-- The pseudocode of each command, between its common start and its end. -/
def bodyOf : Instr → State → Ended
  | .nop => .ok
  | .writeIndex => writeIndexBody
  | .writeData => writeDataBody
  | .readData => readDataBody
  | .writeReg => writeRegBody
  | .readReg => readRegBody
  | .setCursor => setCursorBody
  | .setPoint => setPointBody
  | .getPoint => getPointBody
  | .clear => clearBody
  | .setOrient => setOrientBody
  | .line => lineBody
  | .box => boxBody
  | .boxFill => boxFillBody
  | .circle => circleBody
  | .circleFill => circleFillBody
  | .putChar => putCharBody
  | .touchAcquire => touchAcquireBody
  | .touchFilter => touchFilterBody
  | .calSolve => calSolveBody
  | .calApply => calApplyBody
  | .calApplyRaw => calApplyRawBody

/-- No command stops: each answers the next state its body leads to (R240, R241). -/
theorem exec_eq (i : Instr) (s : State) : exec i s = .next (command (bodyOf i) s) := by
  cases i <;> rfl

theorem exec_next_iff {i : Instr} {s t : State} : exec i s = .next t ↔ command (bodyOf i) s = t := by
  rw [exec_eq]
  exact ⟨fun h => by injection h, fun h => by rw [h]⟩

/-- The state a body ends in, normally or by an error. -/
def Ended.state : Ended → State
  | .ok s => s
  | .raised _ s => s

/-- A command's result is its body's state with the report and BUSY set (R240, R241). -/
theorem command_state (body : State → Ended) (s : State) :
    ∃ err code, (command body s).regs =
        { (body (beginCommand s)).state.regs with busy := false, err := err, errCode := code } ∧
      (command body s).link = (body (beginCommand s)).state.link ∧
      (command body s).cfg = (body (beginCommand s)).state.cfg ∧
      (command body s).host = (body (beginCommand s)).state.host ∧
      (command body s).reply = (body (beginCommand s)).state.reply := by
  rcases command_cases body s with ⟨t, h, e⟩ | ⟨c, t, h, e⟩ <;> rw [e, h] <;>
    exact ⟨_, _, rfl, rfl, rfl, rfl, rfl⟩

/-- What every body leaves alone: the configuration, the host's side, the operands, the flags of the common start. -/
structure Kept (s u : State) : Prop where
  cfg : u.cfg = s.cfg
  host : u.host = s.host
  reply : u.reply = s.reply
  arg : u.regs.arg = s.regs.arg
  err : u.regs.err = s.regs.err
  code : u.regs.errCode = s.regs.errCode

theorem Kept.refl (s : State) : Kept s s := ⟨rfl, rfl, rfl, rfl, rfl, rfl⟩

theorem Kept.trans {s t u : State} (h : Kept s t) (k : Kept t u) : Kept s u :=
  ⟨k.cfg.trans h.cfg, k.host.trans h.host, k.reply.trans h.reply, k.arg.trans h.arg, k.err.trans h.err,
    k.code.trans h.code⟩

theorem setLink_kept (s : State) (l : Link) : Kept s (s.setLink l) := ⟨rfl, rfl, rfl, rfl, rfl, rfl⟩

theorem clearRawValid_kept (s : State) : Kept s (clearRawValid s) := ⟨rfl, rfl, rfl, rfl, rfl, rfl⟩

theorem clearDispValid_kept (s : State) : Kept s (clearDispValid s) := ⟨rfl, rfl, rfl, rfl, rfl, rfl⟩

theorem draw_kept (s : State) (ds : List Dot) : Kept s (s.draw ds) := setLink_kept s _

/-- The seven commands drawn by `Plot` are one shape: the gate, then their dots (R141, R168). -/
theorem bodyOf_plotter {i : Instr} (h : i ∈ plotters) : bodyOf i = gated fun t => t.draw (dotsOf i t) := by
  simp only [plotters, List.mem_cons, List.not_mem_nil, or_false] at h
  rcases h with rfl | rfl | rfl | rfl | rfl | rfl | rfl <;> rfl

theorem gated_kept {f : State → State} (s : State) (h : Kept s (f s)) : Kept s (gated f s).state := by
  unfold gated
  split_ifs
  · exact h
  · exact Kept.refl s

theorem samplePair_kept (n : Nat) (s : State) : Kept s (samplePair n s) := ⟨rfl, rfl, rfl, rfl, rfl, rfl⟩

theorem acquireLoop_kept (room n : Nat) (s : State) : Kept s (acquireLoop room n s).2 := by
  induction room generalizing n s with
  | zero => exact Kept.refl s
  | succ room ih =>
    simp only [acquireLoop]
    split
    · exact ⟨rfl, rfl, rfl, rfl, rfl, rfl⟩
    · exact (setLink_kept s _).trans ((samplePair_kept n _).trans (ih _ _))

theorem runFilter_kept (s : State) : Kept s (runFilter s).state := by
  unfold runFilter
  split
  · exact Kept.refl s
  · split
    · exact Kept.refl s
    · exact ⟨rfl, rfl, rfl, rfl, rfl, rfl⟩

theorem acquire_kept (s : State) : Kept s (acquire s).2 :=
  (acquireLoop_kept 9 0 s).trans ⟨rfl, rfl, rfl, rfl, rfl, rfl⟩

theorem storePoint_kept (s : State) (r : Except ErrCode (Word × Word)) : Kept s (storePoint s r).state := by
  cases r <;> exact ⟨rfl, rfl, rfl, rfl, rfl, rfl⟩

/-- Every body keeps these (R21, R32). -/
theorem body_kept (i : Instr) (s : State) : Kept s (bodyOf i s).state := by
  by_cases hi : i ∈ plotters
  · rw [bodyOf_plotter hi]
    exact gated_kept s (draw_kept s _)
  cases i with
  | setPoint | line | box | boxFill | circle | circleFill | putChar => exact absurd (by decide) hi
  | clear => exact gated_kept (f := fun t => t.setLink (t.link.clear t.cfg t.area (t.regs.x 0))) s (setLink_kept s _)
  | setOrient =>
    simp only [bodyOf, setOrientBody]
    split <;> exact ⟨rfl, rfl, rfl, rfl, rfl, rfl⟩
  | touchAcquire =>
    have h : Kept s (acquire (clearRawValid s)).2 := (clearRawValid_kept s).trans (acquire_kept _)
    simp only [bodyOf, touchAcquireBody]
    split_ifs
    · exact h
    · exact h.trans (runFilter_kept _)
  | touchFilter =>
    simp only [bodyOf, touchFilterBody]
    split_ifs
    · exact clearRawValid_kept s
    · exact (clearRawValid_kept s).trans (runFilter_kept _)
  | calSolve =>
    simp only [bodyOf, calSolveBody]
    split_ifs <;> exact ⟨rfl, rfl, rfl, rfl, rfl, rfl⟩
  | calApply => exact (clearDispValid_kept s).trans (storePoint_kept _ _)
  | calApplyRaw =>
    simp only [bodyOf, calApplyRawBody]
    split_ifs
    · exact (clearDispValid_kept s).trans (storePoint_kept _ _)
    · exact clearDispValid_kept s
  | nop | writeIndex | writeData | readData | writeReg | readReg | setCursor | getPoint =>
    exact ⟨rfl, rfl, rfl, rfl, rfl, rfl⟩

/-! ### Properties of the panel that every frame keeps -/

section Keeps

variable {P : Panel → Prop} {c : Cfg}

/-- A property of the panel that every frame keeps (with the configuration `c`). -/
def FrameClosed (c : Cfg) (P : Panel → Prop) : Prop := ∀ p k, P p → P (p.receive c k)

theorem writeIndex_keeps (hP : FrameClosed c P) (a : Byte) {l : Link} (h : P l.panel) : P (l.writeIndex c a).panel :=
  hP _ _ h

theorem writeData_keeps (hP : FrameClosed c P) (v : Word) {l : Link} (h : P l.panel) : P (l.writeData c v).panel :=
  hP _ _ h

theorem readData_keeps (hP : FrameClosed c P) {l : Link} (h : P l.panel) : P (l.readData c).2.panel :=
  hP _ _ h

theorem memWrite_keeps (hP : FrameClosed c P) (a : Byte) (v : Word) {l : Link} (h : P l.panel) :
    P (l.memWrite c a v).panel :=
  writeData_keeps hP v (writeIndex_keeps hP a h)

theorem setCursor_keeps (hP : FrameClosed c P) (x y : Word) {l : Link} (h : P l.panel) :
    P (l.setCursor c x y).panel :=
  memWrite_keeps hP _ y (memWrite_keeps hP _ x h)

theorem plot_keeps (hP : FrameClosed c P) (g : Geom) (d : Dot) {l : Link} (h : P l.panel) :
    P (l.plot c g d).panel := by
  unfold Link.plot
  split_ifs
  · exact memWrite_keeps hP _ _ (setCursor_keeps hP _ _ h)
  · exact h

theorem plotAll_keeps (hP : FrameClosed c P) (g : Geom) (ds : List Dot) {l : Link} (h : P l.panel) :
    P (l.plotAll c g ds).panel := by
  induction ds generalizing l with
  | nil => exact h
  | cons d ds ih => exact ih (plot_keeps hP g d h)

theorem stream_keeps (hP : FrameClosed c P) (v : Word) (n : Nat) {l : Link} (h : P l.panel) :
    P (Link.stream c v n l).panel := by
  induction n generalizing l with
  | zero => exact h
  | succ n ih => exact ih (writeData_keeps hP v h)

theorem readPixel_keeps (hP : FrameClosed c P) (x y : Word) {l : Link} (h : P l.panel) :
    P (l.readPixel c x y).2.panel := by
  have h1 := readData_keeps hP (writeIndex_keeps hP 0x22 (setCursor_keeps hP x y h))
  have h2 := readData_keeps hP h1
  simp only [Link.readPixel]
  exact h2

end Keeps

theorem acquireLoop_panel (room n : Nat) (s : State) : (acquireLoop room n s).2.link.panel = s.link.panel := by
  induction room generalizing n s with
  | zero => rfl
  | succ room ih =>
    simp only [acquireLoop]
    split
    · rfl
    · rw [ih]; rfl

theorem runFilter_link (s : State) : (runFilter s).state.link = s.link := by
  unfold runFilter
  split
  · rfl
  · split <;> rfl

theorem storePoint_link (s : State) (r : Except ErrCode (Word × Word)) : (storePoint s r).state.link = s.link := by
  cases r <;> rfl

/-- Every command keeps what every frame keeps. -/
theorem exec_keeps_panel {P : Panel → Prop} {i : Instr} {s t : State} (hP : FrameClosed s.cfg P)
    (h : exec i s = .next t) (hs : P s.link.panel) : P t.link.panel := by
  rw [exec_next_iff] at h
  obtain ⟨_, _, _, hl, _⟩ := command_state (bodyOf i) s
  rw [← h, hl]
  have gate : ∀ f : State → State, P (f (beginCommand s)).link.panel → P (gated f (beginCommand s)).state.link.panel := by
    intro f hf
    unfold gated
    split_ifs
    · exact hf
    · exact hs
  by_cases hi : i ∈ plotters
  · rw [bodyOf_plotter hi]
    exact gate (fun t => t.draw (dotsOf i t)) (plotAll_keeps hP _ _ hs)
  cases i with
  | setPoint | line | box | boxFill | circle | circleFill | putChar => exact absurd (by decide) hi
  | clear =>
    exact gate (fun t => t.setLink (t.link.clear t.cfg t.area (t.regs.x 0))) (stream_keeps hP _ _ (plot_keeps hP _ _ hs))
  | setOrient =>
    simp only [bodyOf, setOrientBody]
    split
    · exact hs
    · exact memWrite_keeps hP _ _ hs
  | touchAcquire =>
    have ha : P (acquire (clearRawValid (beginCommand s))).2.link.panel := by
      have : (acquire (clearRawValid (beginCommand s))).2.link.panel = s.link.panel := acquireLoop_panel 9 0 _
      rw [this]; exact hs
    simp only [bodyOf, touchAcquireBody]
    split_ifs
    · exact ha
    · rw [runFilter_link]; exact ha
  | touchFilter =>
    simp only [bodyOf, touchFilterBody]
    split_ifs
    · exact hs
    · rw [runFilter_link]; exact hs
  | calSolve =>
    simp only [bodyOf, calSolveBody]
    split_ifs <;> exact hs
  | calApply => simp only [bodyOf, calApplyBody, storePoint_link]; exact hs
  | calApplyRaw =>
    simp only [bodyOf, calApplyRawBody]
    split_ifs
    · rw [storePoint_link]; exact hs
    · exact hs
  | nop => exact hs
  | writeIndex => exact writeIndex_keeps hP _ hs
  | writeData => exact writeData_keeps hP _ hs
  | readData => exact readData_keeps hP hs
  | writeReg => exact memWrite_keeps hP _ _ hs
  | readReg => exact readData_keeps hP (writeIndex_keeps hP _ hs)
  | setCursor => exact setCursor_keeps hP _ _ hs
  | getPoint => exact readPixel_keeps hP _ _ hs

end Sys2Proof.Machine
end

