-- ==== Sys2Proof/Laws/Stream.lean ====
section
/-! SUPPORT. The auto-increment of the cursor and a stream of pixel writes over a ready panel (20_memory.md R74,
41_display_surface.md R147). -/

namespace Sys2Proof.Machine

/-- A pixel write by a data frame on a ready panel: the cell, and the cursor of R74. -/
theorem pixel_frame {c : Cfg} {g : Geom} {l : Link} (h : Ready g l) (hir : l.panel.ir = 0x22)
    (hx : l.panel.ax.toNat < g.w) (hy : l.panel.ay.toNat < g.h) (v : Word) :
    (l.writeData c v).panel =
      { ({ l.panel with gram := l.panel.gram.write (pixelKey l.panel.ax l.panel.ay) v } : Panel).advance g with
        rdv := false } := by
  rw [writeData_panel h.bus, receive_alive h.alive]
  simp only
  rw [dataWrite_pixel hir, pixelWrite_inside h.geom ⟨hx, hy⟩]

/-- The first `k` pixels of the geometry in row-major order hold `v`, and the cursor is at pixel `k`, or back at
the first after the last (R74, R147). -/
structure Streamed (g : Geom) (v : Word) (k : Nat) (l : Link) : Prop where
  ready : Ready g l
  index : l.panel.ir = 0x22
  inX : l.panel.ax.toNat < g.w
  inY : l.panel.ay.toNat < g.h
  place : (k < g.w * g.h ∧ l.panel.ay.toNat * g.w + l.panel.ax.toNat = k) ∨
    (k = g.w * g.h ∧ l.panel.ax = 0 ∧ l.panel.ay = 0)
  filled : ∀ x y : Word, x.toNat < g.w → y.toNat < g.h → y.toNat * g.w + x.toNat < k →
    l.panel.pixel x y = some v

/-- The cursor after a pixel write, as numbers (R74). -/
theorem advance_toNat (p : Panel) (g : Geom) (hx : p.ax.toNat < g.w) (hy : p.ay.toNat < g.h) (hw : g.w ≤ 32767)
    (hh : g.h ≤ 32767) :
    (p.advance g).ax.toNat = (if p.ax.toNat + 1 = g.w then 0 else p.ax.toNat + 1) ∧
    (p.advance g).ay.toNat = (if p.ax.toNat + 1 = g.w then (if p.ay.toNat + 1 = g.h then 0 else p.ay.toNat + 1)
      else p.ay.toNat) := by
  have e : ∀ x : Word, x.toNat < 32767 → (x + 1).toNat = x.toNat + 1 := by
    intro x h; rw [BitVec.toNat_add]; simp; omega
  simp only [Panel.advance, beq_iff_eq]
  rw [e _ (by omega)]
  by_cases h1 : p.ax.toNat + 1 = g.w
  · rw [if_pos h1, if_pos h1, if_pos h1, if_pos h1, e _ (by omega)]
    split_ifs <;> simp
    omega
  · rw [if_neg h1, if_neg h1, if_neg h1, if_neg h1, if_neg (by omega)]
    simp
    omega

/-- The cursor after a pixel write, as a row-major place (R74). -/
theorem advance_place (p : Panel) (g : Geom) (hx : p.ax.toNat < g.w) (hy : p.ay.toNat < g.h) (hw : g.w ≤ 32767)
    (hh : g.h ≤ 32767) :
    (p.advance g).ax.toNat < g.w ∧ (p.advance g).ay.toNat < g.h ∧
    ((p.ay.toNat * g.w + p.ax.toNat + 1 < g.w * g.h ∧
       (p.advance g).ay.toNat * g.w + (p.advance g).ax.toNat = p.ay.toNat * g.w + p.ax.toNat + 1) ∨
     (p.ay.toNat * g.w + p.ax.toNat + 1 = g.w * g.h ∧ (p.advance g).ax = 0 ∧ (p.advance g).ay = 0)) := by
  obtain ⟨e1, e2⟩ := advance_toNat p g hx hy hw hh
  have z : ∀ x : Word, x.toNat = 0 → x = 0 := fun x h => BitVec.eq_of_toNat_eq (by simpa using h)
  split_ifs at e1 e2 with h1 h2
  · refine ⟨by omega, by omega, .inr ⟨?_, z _ e1, z _ e2⟩⟩
    rw [← h2]; nlinarith
  · refine ⟨by omega, by omega, .inl ⟨?_, ?_⟩⟩
    · have : (p.ay.toNat + 1) + 1 ≤ g.h := by omega
      nlinarith
    · rw [e1, e2]; nlinarith
  · refine ⟨by omega, by omega, .inl ⟨?_, ?_⟩⟩
    · have := Nat.mul_le_mul_right g.w (show p.ay.toNat + 1 ≤ g.h by omega)
      rw [Nat.mul_comm g.h, Nat.succ_mul] at this
      omega
    · rw [e1, e2]; omega

/-- One more data write of the stream (R147). -/
theorem streamed_step {c : Cfg} {g : Geom} {v : Word} {k : Nat} {l : Link} (hw : g.w ≤ 32767) (hh : g.h ≤ 32767)
    (h : Streamed g v k l) (hk : k < g.w * g.h) : Streamed g v (k + 1) (l.writeData c v) := by
  have hp := pixel_frame (c := c) h.ready h.index h.inX h.inY v
  have hpl : l.panel.ay.toNat * g.w + l.panel.ax.toNat = k := by
    rcases h.place with h | h <;> omega
  obtain ⟨a1, a2, a3⟩ := advance_place l.panel g h.inX h.inY hw hh
  have hr : Ready g (l.writeData c v) :=
    ⟨(writeData_sent c v l).bus.trans h.ready.bus, by rw [hp]; exact h.ready.alive, by rw [hp]; exact h.ready.geom⟩
  refine ⟨hr, by rw [hp]; exact h.index, by rw [hp]; exact a1, by rw [hp]; exact a2, by rw [hp, ← hpl]; exact a3,
    fun x y hx hy hxy => ?_⟩
  have hc : (l.writeData c v).panel.cell x y =
      if (x, y) = (l.panel.ax, l.panel.ay) then v else l.panel.cell x y := by
    rw [← cell_write l.panel (l.panel.ax, l.panel.ay) v x y, hp]; rfl
  have old := fun q => h.filled x y hx hy q
  rw [pixel_ready h.ready, if_pos ⟨hx, hy⟩] at old
  rw [pixel_ready hr, if_pos ⟨hx, hy⟩, hc]
  split_ifs with e
  · rfl
  · refine old (lt_of_le_of_ne (by omega) fun q => e ?_)
    have q' : y.toNat * g.w + x.toNat = l.panel.ay.toNat * g.w + l.panel.ax.toNat := by omega
    have ey : y.toNat = l.panel.ay.toNat := by
      have h1 := congrArg (· / g.w) q'
      have hix := h.inX
      simp only [Nat.mul_comm _ g.w, Nat.mul_add_div (show 0 < g.w by omega), Nat.div_eq_of_lt hx,
        Nat.div_eq_of_lt hix] at h1
      simpa using h1
    have ex : x.toNat = l.panel.ax.toNat := by rw [ey] at q'; omega
    rw [BitVec.eq_of_toNat_eq ex, BitVec.eq_of_toNat_eq ey]

/-- `n` more data writes of the stream (R147). -/
theorem stream_streamed {c : Cfg} {g : Geom} {v : Word} (hw : g.w ≤ 32767) (hh : g.h ≤ 32767) (n : Nat) :
    ∀ {k : Nat} {l : Link}, Streamed g v k l → k + n ≤ g.w * g.h → Streamed g v (k + n) (Link.stream c v n l) := by
  induction n with
  | zero => intro k l h _; exact h
  | succ n ih =>
    intro k l h hk
    have := ih (streamed_step (c := c) hw hh h (by omega)) (by omega)
    rw [show k + 1 + n = k + (n + 1) by omega] at this
    exact this

/-- The plot at the origin is the first pixel of the stream (R147). -/
theorem plot_origin_streamed {c : Cfg} {g : Geom} {l : Link} (h : Ready g l) (h0 : 1 ≤ g.w) (h1 : 1 ≤ g.h)
    (hw : g.w ≤ 32767) (hh : g.h ≤ 32767) (v : Word) :
    Streamed g v 1 (l.plot c g { x := 0, y := 0, c := v }) := by
  have hi : Dot.inside g { x := 0, y := 0, c := v } = true := by rw [inside_iff]; simp; omega
  have hp := plot_panel (c := c) h.bus h.alive h.geom (by omega) (by omega) hi
  obtain ⟨hr, hpx⟩ := plot_ready (c := c) h (by omega) (by omega) { x := 0, y := 0, c := v }
  have z : u16 0 = 0 := rfl
  obtain ⟨a1, a2, a3⟩ := advance_place
    { l.panel with
      ir := 0x22, ax := u16 0, ay := u16 0, gram := l.panel.gram.write (pixelKey (u16 0) (u16 0)) v }
    g (by simp [z]; omega) (by simp [z]; omega) hw hh
  simp only [z] at a1 a2 a3 hp
  refine ⟨hr, by rw [hp]; rfl, by rw [hp]; exact a1, by rw [hp]; exact a2, by rw [hp]; simpa using a3, ?_⟩
  intro x y hx hy hxy
  rw [hpx x y hx hy, if_pos]
  have h2 : y.toNat * g.w = 0 := by omega
  have : y.toNat = 0 := by rcases Nat.mul_eq_zero.1 h2 with q | q <;> omega
  simp; omega

/-- A plot inside the area leaves the cursor one pixel past it (R74, R142, R145). -/
theorem plot_past {c : Cfg} {g : Geom} {l : Link} {d : Dot} (h : Ready g l) (hw : g.w ≤ 32767) (hh : g.h ≤ 32767)
    (hi : d.inside g = true) : CursorPast g d.x.toNat d.y.toNat (l.plot c g d).panel := by
  obtain ⟨h1, h2, h3, h4⟩ := (inside_iff g d).1 hi
  have hx := u16_toNat h1 (by omega)
  have hy := u16_toNat h3 (by omega)
  obtain ⟨e1, e2⟩ := advance_toNat { l.panel with
      ir := 0x22, ax := u16 d.x, ay := u16 d.y
      gram := l.panel.gram.write (pixelKey (u16 d.x) (u16 d.y)) d.c } g (by simp only; omega) (by simp only; omega) hw hh
  rw [plot_panel h.bus h.alive h.geom (by omega) (by omega) hi]
  rw [show d.x.toNat = (u16 d.x).toNat by omega, show d.y.toNat = (u16 d.y).toNat by omega]
  exact ⟨rfl, rfl, e1, e2⟩

/-- After plots the cursor is past the last one inside the area, and with none inside the panel is as it was
(R74, R77, R122). -/
theorem plotAll_past {c : Cfg} {g : Geom} (hw : g.w ≤ 32767) (hh : g.h ≤ 32767) (ds : List Dot) {l : Link}
    (h : Ready g l) :
    match (ds.filter (Dot.inside g)).getLast? with
    | some d => CursorPast g d.x.toNat d.y.toNat (l.plotAll c g ds).panel
    | none => (l.plotAll c g ds).panel = l.panel := by
  induction ds generalizing l with
  | nil => exact rfl
  | cons d ds ih =>
    have hr := (plot_ready (c := c) h (by omega) (by omega) d).1
    have := ih hr
    change match ((d :: ds).filter (Dot.inside g)).getLast? with
      | some d' => CursorPast g d'.x.toNat d'.y.toNat ((l.plot c g d).plotAll c g ds).panel
      | none => ((l.plot c g d).plotAll c g ds).panel = l.panel
    by_cases hi : d.inside g = true
    · rw [List.filter_cons_of_pos hi, List.getLast?_cons]
      cases hl : (ds.filter (Dot.inside g)).getLast? with
      | some e => simpa [hl] using this
      | none =>
        simp only [hl] at this
        simp only [Option.getD_none]
        rw [this]; exact plot_past h hw hh hi
    · rw [List.filter_cons_of_neg hi]
      rwa [show l.plot c g d = l by simp [Link.plot, hi]] at this ⊢

end Sys2Proof.Machine
end

