-- ==== Sys2Proof/Laws/Invariant.lean ====
section
/-! SUPPORT. What every frame keeps of the panel: its well-formedness (20_memory.md R70, R72) and the end of the
contract; the geometry a scan value selects; and everything a data write does. -/

namespace Sys2Proof.Machine

/-- No frame brings a contract back that says nothing any more (log entry 6). -/
theorem receive_dead_closed (c : Cfg) : FrameClosed c fun p => p.dead = true := by
  intro p k h
  rw [receive_dead h]; exact h

/-- A scan value selects the geometry of an orientation (R72). -/
theorem scanGeom_legal {c : Cfg} {v : Word} {g : Geom} (h : scanGeom c v = some g) : ∃ o, g = dims c o := by
  unfold scanGeom at h
  split_ifs at h <;> simp only [Option.some.injEq] at h
  · exact ⟨.portrait, h.symm⟩
  · exact ⟨.landscape, h.symm⟩

/-- The scan value of an orientation selects its geometry, unless log entry 10 applies (R72). -/
theorem scanGeom_of_value {c : Cfg} {o : Orient}
    (h : scanValue c .portrait ≠ scanValue c .landscape ∨ wNative c = hNative c) :
    scanGeom c (scanValue c o) = some (dims c o) := by
  have d : wNative c = hNative c → dims c .portrait = dims c .landscape := by
    intro e; simp [dims, e]
  unfold scanGeom
  cases o
  · rw [if_pos rfl, if_neg]
    rintro ⟨h1, h2⟩
    rcases h with h | h
    · exact h h1
    · exact h2 (d h)
  · by_cases e : scanValue c .landscape = scanValue c .portrait
    · have hh : wNative c = hNative c := h.resolve_left (fun q => q e.symm)
      rw [if_pos e, if_neg (fun q => q.2 (d hh)), d hh]
    · rw [if_neg e, if_pos rfl]

/-- A pixel write keeps the panel well formed (R72). -/
theorem pixelWrite_wf {c : Cfg} {p : Panel} (h : PanelWf c p) (v : Word) : PanelWf c (p.pixelWrite v) := by
  cases hg : p.geom with
  | none => simp only [Panel.pixelWrite, hg]; exact ⟨h.form, h.inside, h.legal⟩
  | some g =>
    by_cases hc : p.ax.toNat < g.w ∧ p.ay.toNat < g.h
    · rw [pixelWrite_inside hg hc]
      refine ⟨write_wf h.form _ _, fun cell hcell => ?_, h.legal⟩
      rcases mem_insertCell hcell with rfl | hm
      · exact ⟨g, p.ax, p.ay, hg, hc.1, hc.2, rfl⟩
      · exact h.inside cell hm
    · have : p.cursorInside = false := by
        simp only [Panel.cursorInside, hg, Bool.and_eq_false_iff, decide_eq_false_iff_not]; omega
      simp only [Panel.pixelWrite, hg, this]; exact ⟨h.form, h.inside, h.legal⟩

/-- A change of geometry keeps the panel well formed (R72). -/
theorem scanWrite_wf {c : Cfg} {p : Panel} (h : PanelWf c p) (v : Word) : PanelWf c (p.scanWrite c v) := by
  unfold Panel.scanWrite
  cases hs : scanGeom c v with
  | none => exact ⟨h.form, h.inside, h.legal⟩
  | some g =>
    simp only
    split_ifs
    · exact h
    · exact ⟨unknown_wf, by simp [Memory.unknown], fun g' e => by
        obtain rfl : g = g' := by simpa using e
        exact scanGeom_legal hs⟩

/-- Every frame keeps the panel well formed. -/
theorem receive_wf (c : Cfg) : FrameClosed c (PanelWf c) := by
  intro p k h
  unfold Panel.receive
  split_ifs
  · exact h
  · cases k with
    | index a => exact ⟨h.form, h.inside, h.legal⟩
    | data v =>
      simp only [Panel.dataWrite]
      split_ifs
      · exact ⟨h.form, h.inside, h.legal⟩
      · exact ⟨h.form, h.inside, h.legal⟩
      · exact pixelWrite_wf h v
      · exact scanWrite_wf h v
      · exact ⟨h.form, h.inside, h.legal⟩
    | read => simp only [Panel.latch]; split_ifs <;> exact ⟨h.form, h.inside, h.legal⟩
    | alien => exact ⟨h.form, h.inside, h.legal⟩

/-- Touch acquisition leaves the bus on the display (R63, R65). -/
theorem acquireLoop_bus (room n : Nat) (s : State) (h : s.link.bus = .display) :
    (acquireLoop room n s).2.link.bus = .display := by
  induction room generalizing n s with
  | zero => exact h
  | succ room ih =>
    simp only [acquireLoop]
    split
    · exact h
    · exact ih _ _ rfl

/-- The scan-direction register is none of the cursor and pixel registers (R8, R72). -/
theorem scanReg_ne (c : Cfg) : scanReg c ≠ 0x20 ∧ scanReg c ≠ 0x21 ∧ scanReg c ≠ 0x22 := by
  have hb := c.scanSlot.isLt
  unfold scanReg
  split_ifs with h <;> refine ⟨?_, ?_, ?_⟩ <;> intro e <;> have e' := congrArg BitVec.toNat e <;>
    simp at e' <;> omega

/-- A data write at the scan-direction register is a scan write (R72). -/
theorem dataWrite_scan {c : Cfg} {p : Panel} (h : p.ir = scanReg c) (v : Word) : p.dataWrite c v = p.scanWrite c v := by
  obtain ⟨n0, n1, n2⟩ := scanReg_ne c
  rw [Panel.dataWrite, h, if_neg n0, if_neg n1, if_neg n2, if_pos rfl]

/-- Everything a data write does to a panel in force (R72, R74). -/
theorem dataWrite_follows (c : Cfg) {p : Panel} (hd : p.dead = false) (v : Word) :
    DataWriteFollows c p v (p.dataWrite c v) := by
  refine ⟨fun e => ?_, fun e => ?_, fun g e hg hw hh hx hy => ?_, fun e hn => ?_, fun e o ho hs => ?_, fun e ho => ?_,
    fun n0 n1 n2 n3 => ?_⟩
  · simp [Panel.dataWrite, e]
  · simp [Panel.dataWrite, e]
  · rw [dataWrite_pixel e, pixelWrite_inside hg ⟨hx, hy⟩]
    have hpx : ∀ x y, ({ ({ p with gram := p.gram.write (pixelKey p.ax p.ay) v } : Panel).advance g with
        rdv := false } : Panel).pixel x y =
          if x.toNat < g.w ∧ y.toNat < g.h then some (if (x, y) = (p.ax, p.ay) then v else p.cell x y) else none := by
      intro x y
      rw [← cell_write p (p.ax, p.ay) v x y]
      simp [Panel.pixel, Panel.advance, hg, hd, Panel.cell]
    refine ⟨by rw [hpx, if_pos ⟨hx, hy⟩, if_pos rfl], fun x y ne => ?_, hg, hd, e, rfl, advance_toNat _ g hx hy hw hh⟩
    rw [hpx, if_neg ne]
    simp [Panel.pixel, hg, hd]
  · rw [dataWrite_pixel e, Panel.pixelWrite]
    split
    · rename_i g hg
      have : p.cursorInside = false := by
        have := hn g hg
        simp only [Panel.cursorInside, hg, Bool.and_eq_false_iff, decide_eq_false_iff_not]; omega
      rw [this]; rfl
    · rfl
  · rw [dataWrite_scan e, ho, Panel.scanWrite, scanGeom_of_value hs]
    simp only
    split_ifs with q
    · exact ⟨q, hd, fun _ _ _ => rfl⟩
    · exact ⟨rfl, hd, fun k => absurd k q⟩
  · rw [dataWrite_scan e, Panel.scanWrite, scanGeom, if_neg (ho .portrait), if_neg (ho .landscape)]; rfl
  · rw [Panel.dataWrite, if_neg n0, if_neg n1, if_neg n2, if_neg n3]; rfl

end Sys2Proof.Machine
end

