-- ==== Sys2Proof/Laws/PerInstr.lean ====
section
/-! SUPPORT. For every command, as syntax: its word has a zero upper byte (30_encoding.md R100) and decodes to it, by
the decoder and on its row of the opcode table (R101, R103). -/

namespace Sys2Proof.Laws.Encoding

/-- What holds of the encoding of every command. -/
def Statement (i : Instr) : Prop :=
  (encode i).extractLsb' 8 8 = 0 ∧ decode (encode i) = .ok i ∧ decodeTableWord 16 (encode i).toNat = some i

theorem nop : Statement .nop := ⟨rfl, rfl, rfl⟩
theorem writeIndex : Statement .writeIndex := ⟨rfl, rfl, rfl⟩
theorem writeData : Statement .writeData := ⟨rfl, rfl, rfl⟩
theorem readData : Statement .readData := ⟨rfl, rfl, rfl⟩
theorem writeReg : Statement .writeReg := ⟨rfl, rfl, rfl⟩
theorem readReg : Statement .readReg := ⟨rfl, rfl, rfl⟩
theorem setCursor : Statement .setCursor := ⟨rfl, rfl, rfl⟩
theorem setPoint : Statement .setPoint := ⟨rfl, rfl, rfl⟩
theorem getPoint : Statement .getPoint := ⟨rfl, rfl, rfl⟩
theorem clear : Statement .clear := ⟨rfl, rfl, rfl⟩
theorem setOrient : Statement .setOrient := ⟨rfl, rfl, rfl⟩
theorem line : Statement .line := ⟨rfl, rfl, rfl⟩
theorem box : Statement .box := ⟨rfl, rfl, rfl⟩
theorem boxFill : Statement .boxFill := ⟨rfl, rfl, rfl⟩
theorem circle : Statement .circle := ⟨rfl, rfl, rfl⟩
theorem circleFill : Statement .circleFill := ⟨rfl, rfl, rfl⟩
theorem putChar : Statement .putChar := ⟨rfl, rfl, rfl⟩
theorem touchAcquire : Statement .touchAcquire := ⟨rfl, rfl, rfl⟩
theorem touchFilter : Statement .touchFilter := ⟨rfl, rfl, rfl⟩
theorem calSolve : Statement .calSolve := ⟨rfl, rfl, rfl⟩
theorem calApply : Statement .calApply := ⟨rfl, rfl, rfl⟩
theorem calApplyRaw : Statement .calApplyRaw := ⟨rfl, rfl, rfl⟩

end Sys2Proof.Laws.Encoding
end

