-- ==== Sys2Proof/Laws/Raster.lean ====
section
/-! SUPPORT. Lines in closed form, rows and the order of fills, the octant walk, integer ranges (42_rasterizer.md R161 to R168). -/

namespace Sys2Proof.Machine

/-- A line has one step per unit of the driving delta (R161). -/
theorem lineSteps_length (big small : Nat) (sb ss : Int) (n e : Nat) (b m : Int) :
    (lineSteps big small sb ss n e b m).length = n := by
  induction n generalizing e b m with
  | zero => rfl
  | succ n ih => simp [lineSteps, ih]

/-- The k-th step of a line, in closed form (R161). -/
theorem lineSteps_get {big small : Nat} {sb ss : Int} (hs : small ≤ big) :
    ∀ {n e : Nat} {b m : Int}, e < big → ∀ k, k < n →
      (lineSteps big small sb ss n e b m)[k]? =
        some (b + sb * (k + 1 : Nat), m + ss * (((e + (k + 1) * small) / big : Nat) : Int)) := by
  intro n
  induction n with
  | zero => intro e b m _ k hk; omega
  | succ n ih =>
    intro e b m he k hk
    have hbig : 0 < big := by omega
    simp only [lineSteps]
    have step : ∀ j : Nat, (e + (j + 1) * small) / big =
        (if e + small ≥ big then 1 else 0) +
          ((if e + small ≥ big then e + small - big else e + small) + j * small) / big := by
      intro j
      split_ifs with h
      · rw [show e + (j + 1) * small = (e + small - big + j * small) + big by rw [Nat.succ_mul]; omega,
          Nat.add_div_right _ hbig]; omega
      · rw [show e + (j + 1) * small = e + small + j * small by rw [Nat.succ_mul]; omega]; omega
    cases k with
    | zero =>
      have h0 : ((if e + small ≥ big then e + small - big else e + small) + 0 * small) / big = 0 := by
        apply Nat.div_eq_of_lt; split_ifs <;> omega
      rw [step 0, h0]
      split_ifs <;> simp
    | succ k =>
      simp only [List.getElem?_cons_succ]
      rw [ih (by split_ifs <;> omega) k (by omega), step (k + 1)]
      split_ifs <;> simp only [Option.some.injEq, Prod.mk.injEq] <;> push_cast <;> constructor <;> ring

/-- The octant walk stays between its bounds and is not ended by its iteration count (R165). -/
theorem octantWalk_spec : ∀ (n : Nat) (x y d : Int), 0 ≤ x → y - x < n →
    (∀ m, octantWalk (n + m) x y d = octantWalk n x y d) ∧ ∀ p ∈ octantWalk n x y d, 0 ≤ p.1 ∧ p.1 ≤ p.2 ∧ p.2 ≤ y := by
  intro n
  induction n with
  | zero =>
    intro x y d hx h
    refine ⟨fun m => ?_, by simp [octantWalk]⟩
    cases m with
    | zero => rfl
    | succ m => simp only [octantWalk]; rw [if_neg (by simp at h; omega)]
  | succ n ih =>
    intro x y d hx h
    push_cast at h
    have h1 := ih (x + 1) y (d + 2 * x + 3) (by omega) (by omega)
    have h2 := ih (x + 1) (y - 1) (d + 2 * (x - y) + 5) (by omega) (by omega)
    refine ⟨fun m => ?_, fun p hp => ?_⟩
    · rw [show n + 1 + m = (n + m) + 1 by omega]
      simp only [octantWalk]
      rw [h1.1, h2.1]
    · simp only [octantWalk] at hp
      split_ifs at hp with q1 q2
      · rcases List.mem_cons.1 hp with rfl | hp
        · exact ⟨hx, q1, le_rfl⟩
        · exact h1.2 p hp
      · rcases List.mem_cons.1 hp with rfl | hp
        · exact ⟨hx, q1, le_rfl⟩
        · have := h2.2 p hp; omega
      · simp at hp

/-- The integers of an ascending range. -/
theorem mem_ascending {a : Int} {n : Nat} {v : Int} : v ∈ ascending a n ↔ a ≤ v ∧ v < a + n := by
  simp only [ascending, List.mem_map, List.mem_range]
  constructor
  · rintro ⟨k, hk, rfl⟩; omega
  · rintro ⟨h1, h2⟩; exact ⟨(v - a).toNat, by omega, by omega⟩

/-- The points of a horizontal run are its row (R161). -/
theorem lineSteps_flat (big : Nat) (ss : Int) (n e : Nat) (he : e < big) (b m : Int) (p : Point) :
    p ∈ lineSteps big 0 1 ss n e b m ↔ p.2 = m ∧ b < p.1 ∧ p.1 ≤ b + n := by
  induction n generalizing b with
  | zero => simp [lineSteps]
  | succ n ih =>
    simp only [lineSteps, Nat.add_zero, if_neg (show ¬ e ≥ big by omega), List.mem_cons, ih]
    push_cast
    obtain ⟨p1, p2⟩ := p
    simp only [Prod.mk.injEq]; omega

/-- A line along a row covers exactly the row between its ends (R161, R164). -/
theorem mem_row {xa xb y : Int} (h : xa ≤ xb) (p : Point) : p ∈ linePoints xa y xb y ↔ p.2 = y ∧ xa ≤ p.1 ∧ p.1 ≤ xb := by
  simp only [linePoints, sub_self, Int.natAbs_zero, ge_iff_le, zero_le, if_true, List.mem_cons]
  obtain ⟨p1, p2⟩ := p
  rcases h.eq_or_lt with rfl | h
  · simp [lineSteps]; omega
  · rw [Int.sign_eq_one_of_pos (by omega), lineSteps_flat _ _ _ _ (by omega)]
    simp only [Prod.mk.injEq]; omega

/-- An ascending range is strictly increasing (R164, R167). -/
theorem ascending_sorted (a : Int) (n : Nat) : (ascending a n).Pairwise (· < ·) := by
  rw [ascending, List.pairwise_map]
  exact List.pairwise_lt_range.imp fun h => by omega

/-- Row by row upward, each row from left to right, each point once: the order of a fill (R164, R167). -/
def Scanned (p q : Point) : Prop := p.2 < q.2 ∨ (p.2 = q.2 ∧ p.1 < q.1)

/-- Rows taken upward, each from left to right, are a scan. -/
theorem rows_scanned {ys : List Int} {row : Int → List Point} (hy : ys.Pairwise (· < ·))
    (hrow : ∀ y ∈ ys, ∀ p ∈ row y, p.2 = y) (hs : ∀ y ∈ ys, (row y).Pairwise Scanned) :
    (ys.flatMap row).Pairwise Scanned := by
  induction ys with
  | nil => exact List.Pairwise.nil
  | cons y ys ih =>
    obtain ⟨h1, h2⟩ := List.pairwise_cons.1 hy
    rw [List.flatMap_cons, List.pairwise_append]
    refine ⟨hs y (by simp), ih h2 (fun z hz => hrow z (by simp [hz])) (fun z hz => hs z (by simp [hz])), ?_⟩
    intro p hp q hq
    obtain ⟨z, hz, hq⟩ := List.mem_flatMap.1 hq
    have e1 := hrow y (by simp) p hp
    have e2 := hrow z (by simp [hz]) q hq
    have := h1 z hz
    exact .inl (by omega)

/-- A line along a row runs from left to right (R161, R164). -/
theorem row_scanned {xa xb y : Int} (h : xa ≤ xb) : (linePoints xa y xb y).Pairwise Scanned := by
  have steps : ∀ (big n e : Nat) (b : Int), e < big → (lineSteps big 0 1 0 n e b y).Pairwise Scanned := by
    intro big n
    induction n with
    | zero => intro e b _; exact List.Pairwise.nil
    | succ n ih =>
      intro e b he
      simp only [lineSteps, Nat.add_zero, if_neg (show ¬ e ≥ big by omega), List.pairwise_cons]
      refine ⟨fun p hp => ?_, ih e _ he⟩
      rw [lineSteps_flat _ _ _ _ he] at hp
      exact .inr ⟨hp.1.symm, hp.2.1⟩
  simp only [linePoints, sub_self, Int.natAbs_zero, ge_iff_le, zero_le, if_true, Int.sign_zero]
  rcases h.eq_or_lt with rfl | h
  · simp [lineSteps]
  · rw [Int.sign_eq_one_of_pos (by omega), List.pairwise_cons]
    refine ⟨fun p hp => ?_, steps _ _ _ _ (by omega)⟩
    rw [lineSteps_flat _ _ _ _ (by omega)] at hp
    exact .inr ⟨hp.1.symm, hp.2.1⟩

/-- The scan of CIRCLE_FILL (R167). -/
theorem disk_scanned (cx cy : Int) (r : Nat) : (diskPoints cx cy r).Pairwise Scanned := by
  rw [diskPoints]
  have key : ∀ ys : List Int, ys.Pairwise (· < ·) →
      (ys.flatMap fun dy => ((ascending (-r) (2 * r)).filter fun dx => dx * dx + dy * dy ≤ (r : Int) * r).map
        fun dx => ((cx + dx, cy + dy) : Point)).Pairwise Scanned := by
    intro ys hy
    have := rows_scanned (ys := ys.map (cy + ·)) (row := fun y =>
      ((ascending (-r) (2 * r)).filter fun dx => dx * dx + (y - cy) * (y - cy) ≤ (r : Int) * r).map
        fun dx => ((cx + dx, y) : Point))
      (List.pairwise_map.2 (hy.imp fun h => by omega))
      (fun y _ p hp => by obtain ⟨_, _, rfl⟩ := List.mem_map.1 hp; rfl)
      (fun y _ => List.pairwise_map.2 (((ascending_sorted _ _).filter _).imp fun h => .inr ⟨rfl, by simp only; omega⟩))
    simpa [List.flatMap_map] using this
  exact key _ (ascending_sorted _ _)

/-- The offsets of the mirrored points from the centre (R165). -/
theorem mem_mirrored {cx cy dx dy : Int} {p : Point} : (cx + dx, cy + dy) ∈ mirrored cx cy p ↔
    ((dx = p.1 ∨ dx = -p.1) ∧ (dy = p.2 ∨ dy = -p.2)) ∨ ((dx = p.2 ∨ dx = -p.2) ∧ (dy = p.1 ∨ dy = -p.1)) := by
  simp only [mirrored, List.mem_cons, List.not_mem_nil, or_false, Prod.mk.injEq, sub_eq_add_neg, add_right_inj]
  tauto

/-- The calls of the outline: eight for each octant point, in the order of R165. -/
theorem circleDots_eq (cx cy : Int) (r : Nat) (c : Word) : circleDots cx cy r c =
    (octant r).flatMap fun p => paint c (mirrored cx cy p) := by
  rw [circleDots, circlePoints, paint, List.map_flatMap]; rfl

end Sys2Proof.Machine
end

