-- ==== Sys2Proof/Laws/Touch.lean ====
section
/-! SUPPORT. The outlier filter and the acquisition loop (44_touch_filter.md R201 to R207). -/

namespace Sys2Proof.Machine

/-- The tie-break (R204): which two averages the result is the floor mean of, and that their difference is least. -/
theorem selectAverage_spec (a b c : Nat) :
    ((absDiff a b < absDiff b c ∧ absDiff c a < absDiff a b → selectAverage a b c = (a + c) / 2) ∧
      (absDiff a b < absDiff b c ∧ ¬ absDiff c a < absDiff a b → selectAverage a b c = (a + b) / 2) ∧
      (¬ absDiff a b < absDiff b c ∧ absDiff c a < absDiff b c → selectAverage a b c = (a + c) / 2) ∧
      (¬ absDiff a b < absDiff b c ∧ ¬ absDiff c a < absDiff b c → selectAverage a b c = (b + c) / 2)) ∧
    ((selectAverage a b c = (a + b) / 2 ∧ absDiff a b ≤ absDiff b c ∧ absDiff a b ≤ absDiff c a) ∨
      (selectAverage a b c = (b + c) / 2 ∧ absDiff b c ≤ absDiff a b ∧ absDiff b c ≤ absDiff c a) ∨
      (selectAverage a b c = (a + c) / 2 ∧ absDiff c a ≤ absDiff a b ∧ absDiff c a ≤ absDiff b c)) := by
  simp only [selectAverage]
  constructor
  · refine ⟨?_, ?_, ?_, ?_⟩ <;> intro ⟨q1, q2⟩ <;> simp only [q1, q2, if_true, if_false]
  · split_ifs <;> omega

/-- A group average fits a word (R202). -/
theorem groupAverage_lt (a b c : Word) : groupAverage a b c < 65536 := by
  have := a.isLt; have := b.isLt; have := c.isLt
  simp only [groupAverage]; omega

/-- A selected average fits a word (R204). -/
theorem selectAverage_lt {a b c : Nat} (ha : a < 65536) (hb : b < 65536) (hc : c < 65536) :
    selectAverage a b c < 65536 := by
  simp only [selectAverage]; split_ifs <;> omega

/-- An axis is rejected exactly when its group averages are noisy (R203, R205). -/
theorem filterAxis_none (th : Word) (v : Vector Word 9) :
    filterAxis th v = none ↔ noisy th (groupAverage v[0] v[1] v[2]) (groupAverage v[3] v[4] v[5])
      (groupAverage v[6] v[7] v[8]) = true := by
  simp [filterAxis]

/-- A filtered coordinate is the selected average, exactly (R204, R205). -/
theorem filterAxis_some {th : Word} {v : Vector Word 9} {r : Word} (h : filterAxis th v = some r) :
    r.toNat = selectAverage (groupAverage v[0] v[1] v[2]) (groupAverage v[3] v[4] v[5])
      (groupAverage v[6] v[7] v[8]) := by
  simp only [filterAxis] at h
  split_ifs at h
  rw [← Option.some.inj h, BitVec.toNat_ofNat]
  exact Nat.mod_eq_of_lt (selectAverage_lt (groupAverage_lt _ _ _) (groupAverage_lt _ _ _) (groupAverage_lt _ _ _))

/-- Both axes accepted: the cached point is stored (R205). -/
theorem runFilter_ok {s : State} {rx ry : Word} (hx : filterAxis s.cfg.threshold s.regs.swx = some rx)
    (hy : filterAxis s.cfg.threshold s.regs.swy = some ry) :
    runFilter s = .ok (s.setRegs { s.regs with rawX := rx, rawY := ry, rawValid := true }) := by
  simp [runFilter, hx, hy]

/-- An axis rejected: the error, with nothing stored (R205). -/
theorem runFilter_noisy {s : State} (h : filterAxis s.cfg.threshold s.regs.swx = none ∨
    filterAxis s.cfg.threshold s.regs.swy = none) : runFilter s = .raised .noisyTouchSample s := by
  simp only [runFilter]
  cases hx : filterAxis s.cfg.threshold s.regs.swx with
  | none => rfl
  | some a => rcases h with h | h <;> simp_all

/-- A deasserted poll ends the acquisition (R201). -/
theorem acquireLoop_stop {room n : Nat} {s : State} (h : s.link.tpReady.1 = .deasserted) :
    acquireLoop (room + 1) n s = (n, s.setLink s.link.tpReady.2) := by
  simp only [acquireLoop]; split
  · rfl
  · simp_all

/-- An asserted poll takes one more pair (R201). -/
theorem acquireLoop_pair {room n : Nat} {s : State} (h : s.link.tpReady.1 = .asserted) :
    acquireLoop (room + 1) n s = acquireLoop room (n + 1) (samplePair n (s.setLink s.link.tpReady.2)) := by
  simp only [acquireLoop]; split
  · simp_all
  · rfl

/-- Everything the acquisition loop can do (R201): pairs, events, the window, nothing else of the register file. -/
theorem acquireLoop_spec (room : Nat) : ∀ (n : Nat) (s : State), n + room ≤ 9 → ∃ pairs : List (Word × Word),
    pairs.length ≤ room ∧ (acquireLoop room n s).1 = n + pairs.length ∧
    (acquireLoop room n s).2.events = s.events ++
      (pairs.flatMap fun p => [.gpioRead .asserted, .touchXchg .x p.1, .touchXchg .y p.2]) ++
      (if pairs.length = room then [] else [.gpioRead .deasserted]) ∧
    (∀ k : Fin 9, (acquireLoop room n s).2.regs.swx[k] =
      if n ≤ k.val then ((pairs[k.val - n]?.map Prod.fst).getD s.regs.swx[k]) else s.regs.swx[k]) ∧
    (∀ k : Fin 9, (acquireLoop room n s).2.regs.swy[k] =
      if n ≤ k.val then ((pairs[k.val - n]?.map Prod.snd).getD s.regs.swy[k]) else s.regs.swy[k]) ∧
    (acquireLoop room n s).2.regs = { s.regs with
      swx := (acquireLoop room n s).2.regs.swx, swy := (acquireLoop room n s).2.regs.swy } := by
  induction room with
  | zero => intro n s _; exact ⟨[], by simp [acquireLoop]⟩
  | succ room ih =>
    intro n s hn
    cases hp : s.link.tpReady.1 with
    | deasserted =>
      rw [acquireLoop_stop hp]
      refine ⟨[], by simp, by simp, ?_, by simp, by simp, by simp⟩
      simp [State.events, hp]
    | asserted =>
      obtain ⟨ps, h1, h2, h3, h4, h5, h6⟩ := ih (n + 1) (samplePair n (s.setLink s.link.tpReady.2)) (by omega)
      rw [acquireLoop_pair hp]
      refine ⟨(((s.setLink s.link.tpReady.2).link.touchRead .x).1,
        (((s.setLink s.link.tpReady.2).link.touchRead .x).2.touchRead .y).1) :: ps, by simp; omega,
        by rw [h2]; simp; omega, ?_, ?_, ?_, ?_⟩
      · rw [h3]; simp [State.events, samplePair, hp]
      · intro k; rw [h4 k]
        simp only [samplePair]
        by_cases c1 : n + 1 ≤ k.val
        · rw [if_pos c1, if_pos (by omega), show k.val - n = (k.val - (n+1)) + 1 by omega]
          simp [show n ≠ k.val by omega]
        · by_cases c2 : n = k.val
          · simp [c2]
          · rw [if_neg c1, if_neg (by omega)]
            simp [c2]
      · intro k; rw [h5 k]
        simp only [samplePair]
        by_cases c1 : n + 1 ≤ k.val
        · rw [if_pos c1, if_pos (by omega), show k.val - n = (k.val - (n+1)) + 1 by omega]
          simp [show n ≠ k.val by omega]
        · by_cases c2 : n = k.val
          · simp [c2]
          · rw [if_neg c1, if_neg (by omega)]
            simp [c2]
      · rw [h6]; simp [samplePair]

/-- What acquisition leaves of the register file (R201, R206). -/
theorem acquireLoop_regs (room n : Nat) (s : State) : ∃ xs ys,
    (acquireLoop room n s).2.regs = { s.regs with swx := xs, swy := ys } := by
  induction room generalizing n s with
  | zero => exact ⟨_, _, rfl⟩
  | succ room ih =>
    simp only [acquireLoop]
    split
    · exact ⟨_, _, rfl⟩
    · obtain ⟨xs, ys, h⟩ := ih (n + 1) (samplePair n (s.setLink s.link.tpReady.2))
      exact ⟨xs, ys, h⟩

/-- What the filter can write of the register file (R205). -/
theorem runFilter_regs (s : State) : ∃ x y v, (runFilter s).state.regs = { s.regs with rawX := x, rawY := y, rawValid := v } := by
  unfold runFilter
  split
  · exact ⟨_, _, _, rfl⟩
  · split <;> exact ⟨_, _, _, rfl⟩

end Sys2Proof.Machine
end

