-- ==== Sys2Proof/Laws/Writers.lean ====
section
/-! SUPPORT. Which registers a command can write (10_state.md R23, R27 to R31; 70_reset_and_hazards.md R275), and what a host access can. -/

namespace Sys2Proof.Machine

/-- The gate writes no register of its own (R141). -/
theorem gated_regs {f : State → State} (s : State) (h : (f s).regs = s.regs) : (gated f s).state.regs = s.regs := by
  unfold gated; split_ifs
  · exact h
  · rfl

/-- Which registers a command can write (R23, R27 to R31, R275). -/
theorem body_regs (i : Instr) (s : State) :
    (bodyOf i s).state.regs = s.regs ∨
    (i ∈ [Instr.readData, .readReg, .getPoint] ∧ ∃ v, (bodyOf i s).state.regs = { s.regs with res0 := v }) ∨
    (i = .setOrient ∧ ∃ o, (bodyOf i s).state.regs = { s.regs with orient := o, orientValid := true }) ∨
    (i = .touchAcquire ∧ ∃ xs ys k x y v, (bodyOf i s).state.regs =
      { s.regs with swx := xs, swy := ys, swCount := k, rawX := x, rawY := y, rawValid := v }) ∨
    (i = .touchFilter ∧ ∃ x y v, (bodyOf i s).state.regs = { s.regs with rawX := x, rawY := y, rawValid := v }) ∨
    (i = .calSolve ∧ ((bodyOf i s).state.regs = { s.regs with divider := 0 } ∨
      (bodyOf i s).state.regs = solvedRegs s.regs)) ∨
    (i ∈ [Instr.calApply, .calApplyRaw] ∧ ((bodyOf i s).state.regs = { s.regs with dispValid := false } ∨
      ∃ x y, (bodyOf i s).state.regs =
        { s.regs with res0 := x, res1 := y, dispX := x, dispY := y, dispValid := true })) := by
  by_cases hi : i ∈ plotters
  · left; rw [bodyOf_plotter hi]; exact gated_regs s rfl
  cases i with
  | setPoint | line | box | boxFill | circle | circleFill | putChar => exact absurd (by decide) hi
  | nop | writeIndex | writeData | writeReg | setCursor => exact .inl rfl
  | readData | readReg | getPoint => exact .inr (.inl ⟨by decide, _, rfl⟩)
  | clear => left; exact gated_regs (f := fun t => t.setLink (t.link.clear t.cfg t.area (t.regs.x 0))) s rfl
  | setOrient =>
    simp only [bodyOf, setOrientBody]
    split
    · exact .inl rfl
    · exact .inr (.inr (.inl ⟨trivial, _, rfl⟩))
  | touchAcquire =>
    right; right; right; left
    obtain ⟨xs, ys, h⟩ := acquireLoop_regs 9 0 (clearRawValid s)
    have ha : (acquire (clearRawValid s)).2.regs =
        { s.regs with
          swx := xs, swy := ys, swCount := BitVec.ofNat 4 (acquire (clearRawValid s)).1, rawValid := false } := by
      simp only [acquire, setRegs_regs, h]; rfl
    simp only [bodyOf, touchAcquireBody]
    refine ⟨trivial, ?_⟩
    split_ifs
    · exact ⟨xs, ys, _, _, _, _, ha⟩
    · obtain ⟨x, y, v, hr⟩ := runFilter_regs (acquire (clearRawValid s)).2
      exact ⟨xs, ys, _, x, y, v, by rw [hr, ha]⟩
  | touchFilter =>
    right; right; right; right; left
    simp only [bodyOf, touchFilterBody]
    refine ⟨trivial, ?_⟩
    split_ifs
    · exact ⟨_, _, _, rfl⟩
    · obtain ⟨x, y, v, hr⟩ := runFilter_regs (clearRawValid s)
      exact ⟨x, y, v, hr⟩
  | calSolve =>
    simp only [bodyOf, calSolveBody]
    right; right; right; right; right; left
    refine ⟨trivial, ?_⟩
    split_ifs
    · exact .inl rfl
    · exact .inr rfl
  | calApply =>
    right; right; right; right; right; right
    refine ⟨by decide, ?_⟩
    simp only [bodyOf, calApplyBody, storePoint]
    split
    · exact .inl rfl
    · exact .inr ⟨_, _, rfl⟩
  | calApplyRaw =>
    right; right; right; right; right; right
    refine ⟨by decide, ?_⟩
    simp only [bodyOf, calApplyRawBody, storePoint]
    split_ifs
    · split
      · exact .inl rfl
      · exact .inr ⟨_, _, rfl⟩
    · exact .inl rfl

/-- A host read leaves registers, configuration, panel and bus (R20, R24). -/
theorem hostRead_spec (i : BitVec 7) (s : State) : (hostRead i s).regs = s.regs ∧ (hostRead i s).cfg = s.cfg ∧ (hostRead i s).link.panel = s.link.panel ∧ (hostRead i s).link.bus = s.link.bus := by
  unfold hostRead readStatus readBusy; split_ifs <;> exact ⟨rfl, rfl, rfl, rfl⟩

/-- While BUSY a host read draws one free value, its own, and the counter moves past it (R240; log entry 3): no two
such reads draw the same one. -/
theorem hostRead_busy {i : BitVec 7} {s : State} (h : s.regs.busy = true) : ∃ n, s.link.env.drawn ≤ n ∧
    (hostRead i s).link.env.drawn = n + 1 ∧
    (hostRead i s).reply = some (if i = statusIndex then .half ((Config.freeHost n).extractLsb' 0 16 ||| 1)
      else if isQuadIndex i then .quad (Config.freeHost n) else .half ((Config.freeHost n).extractLsb' 0 16)) := by
  simp only [hostRead, h, if_true]
  split_ifs with hi
  · refine ⟨s.link.tpReady.2.env.drawn, ?_, ?_, ?_⟩
    · simp only [Link.tpReady, Env.drawReady]; split <;> simp
    · simp [readStatus, h, Link.unspecified]
    · simp [readStatus, h, Link.unspecified]
  all_goals exact ⟨s.link.env.drawn, le_refl _, rfl, by simp [readBusy, Link.unspecified, *]⟩

/-- A host write can change the operands and the sample window only (R20). -/
theorem writeReg_rest (i : BitVec 7) (v : Word) (r : Regs) : ∃ a x y k, writeReg i v r = { r with arg := a, swx := x, swy := y, swCount := k } := by
  unfold writeReg; simp only; split_ifs <;> exact ⟨_,_,_,_,rfl⟩

end Sys2Proof.Machine
end

