-- ==== Sys2Proof/Tests/Slice0.lean ====
section
/-! SUPPORT. Tests of the model: the well-formedness smoke test, decoding of words written out from the spec, single
commands against the vectors of 95_test_vectors.md (numbers copied from there or worked out by hand from the rules),
and a witness for the hypotheses of each statement. -/

namespace Sys2Proof.Tests

open Sys2Proof Sys2Proof.Machine

/-! ### The example configuration of 95_test_vectors.md, section 0 -/

/-- `cfgEx` with the native size given. -/
def raw (w h : Nat) : RawCfg where
  wNative := w
  hNative := h
  threshold := 2
  startPrefix := 0b01110
  startReserved := 0
  rsData := 1
  rwRead := 1
  scanReg := 0x03
  scanPortrait := 0x1030
  scanLandscape := 0x1038
  font := [{ code := 0x41,
             rows := #v[0x18, 0x24, 0x42, 0x42, 0x7E, 0x42, 0x42, 0x42, 0, 0, 0, 0, 0, 0, 0, 0] }]
  rawMax := 4095

/-- The checked configuration. -/
def cfg (w h : Nat) : Cfg := (checkCfg (raw w h)).getD default

/-- The machine after reset with a configuration and operands. -/
def fresh (w h : Nat) (ops : List Word) : State :=
  { State.reset with
    cfg := cfg w h
    regs := { Regs.reset with arg := Vector.ofFn fun k => ops.getD k.val 0 } }

/-- The machine with the orientation set and the panel's geometry in agreement, and operands. -/
def drawn (o : Orient) (w h : Nat) (ops : List Word) : State :=
  let s := fresh w h ops
  { s with
    regs := { s.regs with orient := o, orientValid := true }
    link := { s.link with panel := { s.link.panel with geom := some (dims s.cfg o) } } }

/-- The state after a command. -/
def after (i : Instr) (s : State) : State :=
  match exec i s with
  | .next t => t
  | .fault _ => s
  | .refused _ => s

/-- The transmitted bytes of the frames, in order. -/
def sent (s : State) : List (List Byte) := s.events.filterMap Event.sent

/-- The state after command `i`, whose next command has the operands `ops`. -/
def thenOps (ops : List Word) (s : State) : State :=
  { s with regs := { s.regs with arg := Vector.ofFn fun k => ops.getD k.val 0 } }

/-- What a command reports: ERR and ERR_CODE. -/
def report (s : State) : Bool × Byte := (s.regs.err, s.regs.errCode)

/-! ### Well-formedness: each check refuses an ill-formed term -/

theorem test_wf_cfgEx : (raw 240 320).wf = true := by decide
theorem test_wf_width_zero : (raw 0 320).wf = false := by decide
theorem test_wf_width_large : (raw 32768 320).wf = false := by decide
theorem test_wf_height_zero : (raw 240 0).wf = false := by decide
theorem test_wf_height_large : (raw 240 32768).wf = false := by decide
theorem test_wf_threshold : ({ raw 240 320 with threshold := 65536 } : RawCfg).wf = false := by decide
theorem test_wf_scan_reg : ({ raw 240 320 with scanReg := 0x20 } : RawCfg).wf = false ∧
    ({ raw 240 320 with scanReg := 0x21 } : RawCfg).wf = false ∧
    ({ raw 240 320 with scanReg := 0x22 } : RawCfg).wf = false := by decide
theorem test_wf_word_upper_byte : (splitWord 0x0100).wf = false := by decide
theorem test_wf_word_opcode : (splitWord 0x0006).wf = false ∧ (splitWord 0x0042).wf = true := by decide
theorem test_check_refuses : checkCfg (raw 240 0) = none := by decide

/-- The checked configuration has the parameters it was made from, and the start bytes of section 0. -/
theorem test_checked_cfg : wNative (cfg 240 320) = 240 ∧ hNative (cfg 240 320) = 320 ∧ scanReg (cfg 240 320) = 0x03 ∧
    sbWI (cfg 240 320) = 0x70 ∧ sbWD (cfg 240 320) = 0x74 ∧ sbRD (cfg 240 320) = 0x76 := by decide

/-! ### Decoding: words written out bit by bit from 30_encoding.md R103, one family after another -/

theorem test_decode_protocol : decode 0b0000000000000000 = .ok .nop ∧ decode 0b0000000000000001 = .ok .writeIndex ∧
    decode 0b0000000000000010 = .ok .writeData ∧ decode 0b0000000000000011 = .ok .readData ∧
    decode 0b0000000000000100 = .ok .writeReg ∧ decode 0b0000000000000101 = .ok .readReg := by decide
theorem test_decode_surface : decode 0b0000000000010000 = .ok .setCursor ∧ decode 0b0000000000010001 = .ok .setPoint ∧
    decode 0b0000000000010010 = .ok .getPoint ∧ decode 0b0000000000010011 = .ok .clear ∧
    decode 0b0000000000010100 = .ok .setOrient := by decide
theorem test_decode_raster : decode 0b0000000000100000 = .ok .line ∧ decode 0b0000000000100001 = .ok .box ∧
    decode 0b0000000000100010 = .ok .boxFill ∧ decode 0b0000000000100011 = .ok .circle ∧
    decode 0b0000000000100100 = .ok .circleFill ∧ decode 0b0000000000101000 = .ok .putChar := by decide
theorem test_decode_touch_calibration : decode 0b0000000000110000 = .ok .touchAcquire ∧
    decode 0b0000000000110001 = .ok .touchFilter ∧ decode 0b0000000001000000 = .ok .calSolve ∧
    decode 0b0000000001000001 = .ok .calApply ∧ decode 0b0000000001000010 = .ok .calApplyRaw := by decide

/-- The rejected words of section 2.8. -/
theorem test_decode_rejects : decode 0x0100 = .error .nonzeroUpperByte ∧ decode 0xFFFF = .error .nonzeroUpperByte ∧
    [0x0006, 0x0007, 0x0015, 0x0025, 0x0029, 0x0032, 0x0043, 0x00FF].map decode =
      List.replicate 8 (.error .unassignedOpcode) := by decide

/-- The table's numbering of a command word; nothing else has 16 bits. -/
theorem test_decode_table : decodeTableWord 16 0x0042 = some .calApplyRaw ∧ decodeTableWord 16 0x0142 = none ∧
    decodeTableWord 32 0x10042 = none := by decide

/-! ### Register protocol and display surface (sections 2.1 and 2.2) -/

theorem test_nop : report (after .nop (after .setPoint (fresh 240 320 []))) = (false, 0) ∧
    sent (after .nop (fresh 240 320 [])) = [] := by decide
theorem test_write_index : sent (after .writeIndex (fresh 240 320 [0x0122])) = [[0x70, 0x00, 0x22]] := by decide
theorem test_write_data : sent (after .writeData (fresh 240 320 [0xBEEF])) = [[0x74, 0xBE, 0xEF]] := by decide
theorem test_write_reg : sent (after .writeReg (fresh 240 320 [0x50, 0x00EF])) = [[0x70, 0, 0x50], [0x74, 0, 0xEF]] ∧
    (after .writeReg (fresh 240 320 [0x50, 0x00EF])).link.panel.dead = true := by decide
theorem test_read_reg : sent (after .readReg (fresh 240 320 [0])) = [[0x70, 0, 0], [0x76, 0, 0, 0]] := by decide
theorem test_set_cursor : sent (after .setCursor (fresh 240 320 [0xFFFF, 0x1234])) =
    [[0x70, 0, 0x20], [0x74, 0xFF, 0xFF], [0x70, 0, 0x21], [0x74, 0x12, 0x34]] := by decide
theorem test_set_point : sent (after .setPoint (drawn .portrait 240 320 [5, 258, 0xF800])) =
    [[0x70, 0, 0x20], [0x74, 0, 5], [0x70, 0, 0x21], [0x74, 1, 2], [0x70, 0, 0x22], [0x74, 0xF8, 0]] := by decide
theorem test_set_point_outside : sent (after .setPoint (drawn .portrait 240 320 [240, 0, 7])) = [] ∧
    report (after .setPoint (drawn .portrait 240 320 [0, 320, 7])) = (false, 0) ∧
    (sent (after .setPoint (drawn .landscape 240 320 [240, 0, 7]))).length = 6 := by decide

/-- The round trip of S7, and READ_DATA right after it in the native order (program P1, lines 3, 5 and 6). -/
theorem test_get_point :
    (after .getPoint (after .setPoint (drawn .portrait 240 320 [5, 258, 0xF800]))).regs.res0 = 0xF800 := by decide
theorem test_read_data : (after .readData (after .getPoint (after .setPoint
    (drawn .portrait 240 320 [5, 258, 0xF800])))).regs.res0 = 0x001F := by decide

theorem test_clear : sent (after .clear (drawn .portrait 2 2 [0x001F])) =
    [[0x70, 0, 0x20], [0x74, 0, 0], [0x70, 0, 0x21], [0x74, 0, 0], [0x70, 0, 0x22], [0x74, 0, 0x1F], [0x74, 0, 0x1F],
     [0x74, 0, 0x1F], [0x74, 0, 0x1F]] := by decide
theorem test_clear_landscape : (sent (after .clear (drawn .landscape 3 2 [0xABCD]))).length = 11 ∧
    (after .clear (drawn .landscape 3 2 [0xABCD])).link.panel.pixel 1 2 = some 0xABCD := by decide
theorem test_set_orient : sent (after .setOrient (fresh 240 320 [1])) = [[0x70, 0, 3], [0x74, 0x10, 0x38]] ∧
    (after .setOrient (fresh 240 320 [1])).link.panel.geom = some { w := 320, h := 240 } := by decide
theorem test_set_orient_bad : report (after .setOrient (fresh 240 320 [2])) = (true, 8) ∧
    sent (after .setOrient (fresh 240 320 [2])) = [] := by decide
theorem test_swap_rb : swapRB 0x1234 = 0xA222 ∧ swapRB 0xABCD = 0x6BD5 := by decide

/-- The stream of section 2.1: three pixels from (4, 0) on a 6 × 5 panel; the cursor ends at (1, 1). -/
theorem test_auto_increment :
    let p := (after .writeData (thenOps [3] (after .writeData (thenOps [2] (after .writeData (thenOps [1]
      (after .writeIndex (thenOps [0x22] (after .setCursor (drawn .portrait 6 5 [4, 0])))))))))).link.panel
    (p.pixel 4 0, p.pixel 5 0, p.pixel 0 1, p.ax, p.ay) = (some 1, some 2, some 3, 1, 1) := by decide

/-! ### Rasterizer and text (sections 2.3 to 2.5) -/

theorem test_line : linePoints 0 0 5 2 = [(0, 0), (1, 0), (2, 1), (3, 1), (4, 2), (5, 2)] ∧
    linePoints 3 0 0 2 = [(3, 0), (2, 1), (1, 1), (0, 2)] := by decide
theorem test_line_y_drives : linePoints 0 0 1 4 = [(0, 0), (0, 1), (1, 2), (1, 3), (1, 4)] ∧
    linePoints 6 6 3 3 = [(6, 6), (5, 5), (4, 4), (3, 3)] := by decide
theorem test_box : (dotsOf .box (fresh 240 320 [3, 3, 1, 1, 9])).map (fun d => (d.x, d.y)) =
    [(3, 3), (2, 3), (1, 3), (3, 1), (2, 1), (1, 1), (3, 3), (3, 2), (3, 1), (1, 3), (1, 2), (1, 1)] := by decide
theorem test_box_fill : (dotsOf .boxFill (fresh 240 320 [1, 1, 4, 3, 9, 8])).drop 14 =
    [{ x := 2, y := 2, c := 8 }, { x := 3, y := 2, c := 8 }] ∧
    (dotsOf .boxFill (fresh 240 320 [1, 1, 2, 5, 9, 8])).length = 14 := by decide
theorem test_circle : circlePoints 10 10 2 =
    [(10, 12), (10, 12), (10, 8), (10, 8), (12, 10), (8, 10), (12, 10), (8, 10),
     (11, 12), (9, 12), (11, 8), (9, 8), (12, 11), (8, 11), (12, 9), (8, 9)] := by decide
theorem test_circle_clipped : (sent (after .circle (drawn .portrait 7 7 [1, 1, 3, 0xFFFF]))).length = 60 ∧
    octant 5 = [(0, 5), (1, 5), (2, 5), (3, 4)] := by decide
theorem test_circle_fill : (diskPoints 3 3 2) =
    [(3, 1), (2, 2), (3, 2), (4, 2), (1, 3), (2, 3), (3, 3), (4, 3), (2, 4), (3, 4), (4, 4)] ∧
    (dotsOf .circleFill (fresh 240 320 [3, 3, 2, 0x001F, 0x001F])).length = 11 := by decide
theorem test_circle_fill_radius_zero : (dotsOf .circleFill (fresh 240 320 [3, 3, 0, 1, 2])).length = 8 ∧
    dotsOf .circleFill (fresh 240 320 [3, 3, 0, 2, 2]) = [] := by decide
theorem test_put_char : (dotsOf .putChar (drawn .portrait 240 320 [10, 20, 0x0141, 0xFFFF, 0])).take 5 =
    [⟨10, 20, 0⟩, ⟨11, 20, 0⟩, ⟨12, 20, 0⟩, ⟨13, 20, 0xFFFF⟩, ⟨14, 20, 0xFFFF⟩] := by decide
theorem test_put_char_landscape : let ds := dotsOf .putChar (drawn .landscape 240 320 [10, 20, 0x41, 0xFFFF, 0])
    ds[3]? = some ⟨20, 13, 0xFFFF⟩ ∧ ds[8]? = some ⟨19, 10, 0⟩ ∧ ds[127]? = some ⟨5, 17, 0⟩ := by decide
theorem test_next_char : nextCharPos { w := 240, h := 320 } 224 0 = (232, 0) ∧
    nextCharPos { w := 240, h := 320 } 232 0 = (0, 16) := by decide

/-! ### Touch (section 2.6) -/

theorem test_filter_reject : filterAxis 2 #v[100, 101, 102, 500, 501, 499, 900, 901, 902] = none ∧
    filterAxis 2 #v[7, 8, 9, 1, 2, 3, 4, 5, 6] = none := by decide
theorem test_filter_ties : filterAxis 2 #v[100, 101, 102, 500, 501, 499, 101, 101, 101] = some 101 ∧
    filterAxis 2 #v[100, 100, 100, 102, 102, 102, 104, 104, 104] = some 103 ∧
    filterAxis 2 #v[105, 105, 105, 103, 103, 103, 100, 100, 100] = some 104 ∧
    filterAxis 2 #v[0, 0, 1, 65535, 65535, 65535, 65535, 65534, 65535] = some 65534 := by decide

/-- A window written by the host, with SW_COUNT = 9 and RAW = (1111, 2222). -/
def window (xs ys : Vector Word 9) : State :=
  let s := fresh 240 320 []
  { s with regs := { s.regs with swx := xs, swy := ys, swCount := 9, rawX := 1111, rawY := 2222 } }

theorem test_touch_filter :
    let t := after .touchFilter (window #v[100, 101, 102, 500, 501, 499, 101, 101, 101] (Vector.replicate 9 7))
    (report t, t.regs.rawX, t.regs.rawY, t.regs.rawValid) = ((false, 0), 101, 7, true) := by decide
theorem test_touch_filter_noisy :
    let t := after .touchFilter (window (Vector.replicate 9 7) #v[100, 101, 102, 500, 501, 499, 900, 901, 902])
    (report t, t.regs.rawX, t.regs.rawY, t.regs.rawValid) = ((true, 4), 1111, 2222, false) := by decide

/-- The environment with these levels and samples ahead. -/
def withEnv (ready : List Level) (touch : List Word) (s : State) : State :=
  { s with link := { s.link with env := { s.link.env with ready := ready, touch := touch } } }

theorem test_touch_acquire_short :
    let t := after .touchAcquire (withEnv [.asserted, .asserted, .deasserted] [1, 5, 2, 6] (window
      (Vector.replicate 9 7) (Vector.replicate 9 7)))
    (report t, t.regs.swCount, t.regs.rawX, t.regs.swx.toList.take 3) = ((true, 5), 2, 1111, [1, 2, 7]) ∧
      t.events = [.gpioRead .asserted, .touchXchg .x 1, .touchXchg .y 5, .gpioRead .asserted, .touchXchg .x 2,
        .touchXchg .y 6, .gpioRead .deasserted] := by decide
theorem test_touch_acquire :
    let t := after .touchAcquire (withEnv (List.replicate 9 .asserted)
      [100, 2000, 100, 2000, 101, 2000, 102, 2000, 102, 2000, 103, 2000, 100, 2000, 100, 2000, 100, 2000]
      (fresh 240 320 []))
    (report t, t.regs.swCount, t.regs.rawX, t.regs.rawY, t.events.length) = ((false, 0), 9, 100, 2000, 27) := by decide

/-! ### Calibration (section 2.7) and errors (section 2.8) -/

/-- The first row of the calibration table, solved. -/
def solved : State := after .calSolve (fresh 240 320 [45, 45, 45, 270, 190, 190, 3388, 920, 3388, 3300, 1200, 2500])

theorem test_cal_solve : (solved.regs.divider.toInt, solved.regs.an.toInt, solved.regs.bn.toInt, solved.regs.cn.toInt,
    solved.regs.dn.toInt, solved.regs.en.toInt, solved.regs.fn.toInt) =
    (5207440, -345100, 0, 1403533600, 10400, 492300, -253816400) := by decide
theorem test_cal_solve_degenerate : let t := after .calSolve (fresh 240 320 [1, 2, 3, 4, 5, 6, 0, 0, 10, 0, 20, 0])
    (report t, t.regs.divider) = ((true, 3), 0) := by decide
theorem test_cal_apply : let t := after .calApply (thenOps [2000, 2000] solved)
    (report t, t.regs.res0, t.regs.res1, t.regs.dispX, t.regs.dispY, t.regs.dispValid) =
      ((false, 0), 136, 144, 136, 144, true) := by decide

/-- The sixth row: a quotient between −1 and 0 is 0, and the point is in range. -/
theorem test_cal_apply_truncates : let t := after .calApply (thenOps [0, 0]
      (after .calSolve (fresh 240 320 [0, 0, 100, 0, 0, 100, 1, 0, 201, 0, 1, 200])))
    (report t, t.regs.res0, t.regs.res1) = ((false, 0), 0, 0) ∧
      report (after .calApply (thenOps [0, 0] solved)) = (true, 6) := by decide
theorem test_cal_apply_raw : report (after .calApplyRaw (fresh 240 320 [])) = (true, 7) ∧
    (after .calApplyRaw { solved with regs := { solved.regs with rawX := 2000, rawY := 2000, rawValid := true }
      }).regs.res1 = 144 := by decide
theorem test_not_init : report (after .line (fresh 240 320 [0, 0, 4, 0, 1])) = (true, 2) := by decide

/-! ### The host's port -/

/-- A step takes one host access: here an operand write, and a STATUS read of the machine after reset (10_state.md R24),
with the line deasserted. -/
theorem test_step_write : ∃ t, step { fresh 240 320 [] with host := [.write 0x0B 0x1234] } = .next t ∧
    t.regs.arg[11] = 0x1234 ∧ t.host = [] := ⟨_, rfl, by decide, rfl⟩
theorem test_step_status : ∃ t, step (withEnv [.deasserted] [] { after .clear (fresh 240 320 []) with host := [.read 0x11] }) =
    .next t ∧ t.reply = some (.half 0x0002) := ⟨_, rfl, by decide⟩

/-- Two reads while BUSY (R240): STATUS with BUSY = 1, then RES0; each draws its own free value (log entry 3). -/
theorem test_busy_reads :
    let s := withEnv [.asserted] [] { fresh 240 320 [] with regs := { Regs.reset with busy := true } }
    let t := hostRead 0x11 s
    t.reply = some (.half ((Config.freeHost 0).extractLsb' 0 16 ||| 1)) ∧
      (hostRead 0x13 t).reply = some (.half ((Config.freeHost 1).extractLsb' 0 16)) := ⟨rfl, rfl⟩
theorem test_fetch : step ((fresh 240 320 [2]).withFetchWord 16 0x0014) = exec .setOrient (fresh 240 320 [2]) := rfl

/-! ### Witnesses: the hypotheses of each statement are met together by concrete states -/

theorem witness_StepRunsTheDecodedCommand :
    let s : State := { fresh 240 320 [] with host := [.write cmdIndex 0x0042] }
    s.host = .write cmdIndex 0x0042 :: [] ∧ s.regs.busy = false ∧ decode 0x0042 = .ok .calApplyRaw := by decide

theorem witness_IllegalWordOnlyReports :
    let s : State := { fresh 240 320 [] with host := [.write cmdIndex 0x0100] }
    (s.host = .write cmdIndex 0x0100 :: [] ∧ s.regs.busy = false) ∧ (0x0100 : Word).extractLsb' 8 8 ≠ 0 ∧
      (0x0043 : Word).extractLsb' 8 8 = 0 ∧ ∀ i, opcodeOf i ≠ (0x0043 : Word).extractLsb' 0 8 :=
  ⟨by decide, by decide, by decide, fun i => by cases i <;> decide⟩

theorem witness_BusyIgnoresHostWrites :
    let s : State := { fresh 240 320 [] with
      host := [.write cmdIndex 0], regs := { Regs.reset with busy := true } }
    s.host = .write cmdIndex 0 :: [] ∧ s.regs.busy = true := by decide

/-- Both statements about the register map, with the first and the last index of each range without a register. -/
theorem witness_HostReadsFollowTheRegisterMap : (fresh 240 320 []).regs.busy = false ∧
    ∀ i ∈ ([0x0C, 0x1F, 0x29, 0x2F, 0x3A, 0x3F, 0x47, 0x7F] : List (BitVec 7)),
      i.toNat ∈ [0x0C, 0x0D, 0x0E, 0x0F, 0x10, 0x15, 0x16, 0x17, 0x1D, 0x1E, 0x1F] ∨
        (0x29 ≤ i.toNat ∧ i.toNat ≤ 0x2F) ∨ (0x3A ≤ i.toNat ∧ i.toNat ≤ 0x3F) ∨ 0x47 ≤ i.toNat := by decide
theorem witness_HostWritesReachOnlyWritableRegisters : (fresh 240 320 []).regs.busy = false ∧
    ∀ i ∈ ([0x0C, 0x0F, 0x11, 0x1F, 0x29, 0x2F, 0x3A, 0x7F] : List (BitVec 7)),
      (0x0C ≤ i.toNat ∧ i.toNat ≤ 0x0F) ∨ (0x11 ≤ i.toNat ∧ i.toNat ≤ 0x1F) ∨ (0x29 ≤ i.toNat ∧ i.toNat ≤ 0x2F) ∨
        0x3A ≤ i.toNat := by decide

theorem witness_StatusReadPollsTheLine :
    let s : State := { fresh 240 320 [] with host := [.read 0x11] }
    s.host = .read 0x11 :: [] ∧ s.regs.busy = false := by decide

/-- A command that ends in a next state, for the statements that start from one. -/
theorem witness_CommandsKeepOperandsAndConfiguration :
    exec .setCursor (fresh 240 320 [1, 2]) = .next (after .setCursor (fresh 240 320 [1, 2])) := rfl
theorem witness_EventsAreOnlyAppended :
    exec .setCursor (fresh 240 320 [1, 2]) = .next (after .setCursor (fresh 240 320 [1, 2])) ∧
      (sent (after .setCursor (fresh 240 320 [1, 2]))).length = 4 := ⟨rfl, by decide⟩
theorem witness_BusStaysOnTheDisplay :
    exec .touchAcquire (fresh 240 320 []) = .next (after .touchAcquire (fresh 240 320 [])) ∧
      (fresh 240 320 []).link.bus = .display := ⟨rfl, rfl⟩
theorem witness_SharedStateHasOneWriter :
    exec .touchAcquire (fresh 240 320 []) = .next (after .touchAcquire (fresh 240 320 [])) ∧
      Instr.touchAcquire ≠ .setOrient ∧ Instr.touchAcquire ≠ .calSolve ∧
      Instr.calApply ∉ [Instr.touchAcquire, .touchFilter] ∧
      Instr.touchAcquire ∉ [Instr.calApply, .calApplyRaw] := ⟨rfl, by decide⟩
theorem witness_ResultsAndWindowHaveTheirWriters :
    exec .clear (fresh 240 320 []) = .next (after .clear (fresh 240 320 [])) ∧
      Instr.clear ∉ [Instr.readData, .readReg, .getPoint, .calApply, .calApplyRaw] ∧
      Instr.clear ∉ [Instr.calApply, .calApplyRaw] ∧ Instr.clear ≠ .touchAcquire := ⟨rfl, by decide⟩
theorem witness_OtherCommandsKeepEveryPixel : (drawn .portrait 6 5 [1, 1]).link.bus = .display ∧
    exec .getPoint (drawn .portrait 6 5 [1, 1]) = .next (after .getPoint (drawn .portrait 6 5 [1, 1])) := ⟨rfl, rfl⟩
theorem witness_VoidPanelStaysVoid :
    let s := after .writeReg (drawn .portrait 6 5 [0x50, 0])
    exec .clear s = .next (after .clear s) ∧ s.link.panel.dead = true := ⟨rfl, by decide⟩

theorem witness_ResetOfTheDfcLeavesThePanel :
    ({ fresh 240 320 [] with host := [.reset] } : State).host = .reset :: [] := rfl

/-- A panel in force: WRITE_INDEX, SET_CURSOR and the statements that start from `PanelAlive`. -/
theorem witness_WriteIndexSendsOneFrame : PanelAlive (fresh 240 320 [0x22]) := ⟨rfl, rfl⟩
theorem witness_SetCursorSendsXThenY : PanelAlive (fresh 240 320 [0xFFFF, 0]) := ⟨rfl, rfl⟩

/-- A panel of 6 × 5 pixels whose index and cursor are these. -/
def panelAt (ir : Byte) (x y v : Word) : State :=
  let s := drawn .portrait 6 5 [v]
  { s with link := { s.link with panel := { s.link.panel with ir := ir, ax := x, ay := y, rdv := true } } }

/-- The clauses of the data write: cursor registers, the last pixel, the first one outside, both scan values, a scan
value of no orientation, another register. -/
theorem witness_PanelDataWriteFollowsTheIndex :
    PanelAlive (panelAt 0x20 5 4 9) ∧ (panelAt 0x20 5 4 9).link.panel.ir = 0x20 ∧
    (panelAt 0x21 5 4 9).link.panel.ir = 0x21 ∧
    (panelAt 0x22 5 4 9).link.panel.geom = some { w := 6, h := 5 } ∧
    (∀ g, (panelAt 0x22 6 4 9).link.panel.geom = some g → ¬ ((6 : Word).toNat < g.w ∧ (4 : Word).toNat < g.h)) ∧
    (panelAt 0x03 0 0 0x1030).link.panel.ir = scanReg (panelAt 0x03 0 0 0x1030).cfg ∧
    (panelAt 0x03 0 0 0x1030).regs.arg[0] = scanValue (panelAt 0x03 0 0 0x1030).cfg .portrait ∧
    scanValue (cfg 6 5) .portrait ≠ scanValue (cfg 6 5) .landscape ∧
    (∀ o, (7 : Word) ≠ scanValue (cfg 6 5) o) ∧
    (0x50 : Byte) ≠ scanReg (cfg 6 5) :=
  ⟨⟨rfl, rfl⟩, rfl, rfl, rfl, fun g h => by obtain rfl : { w := 6, h := 5 } = g := Option.some.inj h; decide, by decide,
    by decide, by decide, fun o => by cases o <;> decide, by decide⟩

theorem witness_PanelReadLatchesThenReturnsThePixel :
    let s := panelAt 0x22 5 4 9
    PanelAlive s ∧ s.link.panel.ir = 0x22 ∧ exec .readData s = .next (after .readData s) ∧ s.link.panel.rdv = true ∧
      s.link.panel.pixel s.link.panel.ax s.link.panel.ay = some (Config.freePixel 0 (pixelKey 5 4)) :=
  ⟨⟨rfl, rfl⟩, rfl, rfl, rfl, rfl⟩

/-- The clauses of WRITE_REG: those of the data write at the index it selects, the last pixel among them. -/
theorem witness_WriteRegSendsIndexThenData :
    PanelAlive (panelAt 0 5 4 0x22) ∧ (panelAt 0 5 4 0x20).regs.arg[0].extractLsb' 0 8 = 0x20 ∧
    (panelAt 0 5 4 0x21).regs.arg[0].extractLsb' 0 8 = 0x21 ∧ (panelAt 0 5 4 0x22).regs.arg[0].extractLsb' 0 8 = 0x22 ∧
    (panelAt 0 5 4 0x03).regs.arg[0].extractLsb' 0 8 = scanReg (panelAt 0 5 4 0x03).cfg ∧
    (panelAt 0 5 4 0x22).link.panel.pixel 5 4 = some (Config.freePixel 0 (pixelKey 5 4)) ∧
    CursorPast { w := 6, h := 5 } 5 4 (after .writeReg (panelAt 0 5 4 0x22)).link.panel ∧
    (0x22 : Byte) ≠ scanReg (cfg 6 5) ∧ (after .writeReg (panelAt 0 5 4 0x22)).link.panel.dead = false :=
  ⟨⟨rfl, rfl⟩, by decide, by decide, by decide, by decide, rfl, ⟨by decide, by decide, by decide, by decide⟩, by decide,
    by decide⟩

theorem witness_OrientationGate : (fresh 240 320 []).regs.orientValid = false := rfl

/-- The last pixel of the area and the first outside in each axis. -/
theorem witness_SetPointPlotsOrDrops : (drawn .portrait 240 320 []).regs.orientValid = true ∧
    (drawn .portrait 240 320 []).area = { w := 240, h := 320 } ∧ (239 : Word).toNat < 240 ∧ (319 : Word).toNat < 320 ∧
    ¬ ((240 : Word).toNat < 240) ∧ ¬ ((320 : Word).toNat < 320) ∧ PanelReady (drawn .portrait 240 320 []) :=
  ⟨by decide, by decide, by decide, by decide, by decide, by decide, ⟨⟨rfl, rfl⟩, rfl⟩⟩
theorem witness_GetPointSendsSevenFrames : PanelAlive (fresh 240 320 [0xFFFF, 0]) ∧
    (after .getPoint (fresh 240 320 [0xFFFF, 0])).link.panel.ax = 0xFFFF := ⟨⟨rfl, rfl⟩, by decide⟩

theorem witness_ClearSendsItsStream : (drawn .landscape 3 2 [7]).regs.orientValid = true := rfl
theorem witness_ClearFillsThePanel : (drawn .landscape 3 2 [7]).regs.orientValid = true ∧
    PanelReady (drawn .landscape 3 2 [7]) ∧ (1 : Word).toNat < (drawn .landscape 3 2 [7]).area.w ∧
    (2 : Word).toNat < (drawn .landscape 3 2 [7]).area.h := ⟨rfl, ⟨⟨rfl, rfl⟩, rfl⟩, by decide, by decide⟩

theorem witness_SetOrientStoresAndWritesTheScanRegister :
    (fresh 240 320 [0]).regs.arg[0] = 0 ∧ (fresh 240 320 [1]).regs.arg[0] = 1 ∧
      1 < (fresh 240 320 [2]).regs.arg[0].toNat := by decide
theorem witness_SetOrientAgreesTheGeometry :
    let s := drawn .portrait 240 320 [0]
    PanelAlive s ∧ exec .setOrient s = .next (after .setOrient s) ∧ (after .setOrient s).regs.err = false ∧
      scanValue s.cfg .portrait ≠ scanValue s.cfg .landscape ∧ s.link.panel.geom = some (after .setOrient s).area :=
  ⟨⟨rfl, rfl⟩, rfl, by decide, by decide, by decide⟩

theorem witness_DrawingSendsTheFramesOfItsPlots : Instr.putChar ∈ plotters ∧ Instr.setPoint ∈ plotters ∧
    (drawn .portrait 6 5 [1, 1, 9]).regs.orientValid = true := by decide
theorem witness_DrawingChangesOnlyItsPixels : Instr.setPoint ∈ plotters ∧ PanelReady (drawn .portrait 6 5 [5, 4, 9]) ∧
    lastColour (dotsOf .setPoint (drawn .portrait 6 5 [5, 4, 9])) 5 4 = some 9 ∧
    lastColour (dotsOf .setPoint (drawn .portrait 6 5 [5, 4, 9])) 4 4 = none ∧
    ((dotsOf .setPoint (drawn .portrait 6 5 [5, 4, 9])).filter (Dot.inside { w := 6, h := 5 })).getLast? =
      some ⟨5, 4, 9⟩ ∧
    ((dotsOf .setPoint (drawn .portrait 6 5 [6, 4, 9])).filter (Dot.inside { w := 6, h := 5 })).getLast? = none :=
  ⟨by decide, ⟨⟨rfl, rfl⟩, rfl⟩, by decide, by decide, by decide, by decide⟩

/-- Both cases of the line: the tie is x-driven, one step more is y-driven. -/
theorem witness_LineHasTheMidpointForm : (3 - 0 : Int).natAbs ≥ (3 - 0 : Int).natAbs ∧
    (3 - 0 : Int).natAbs < (4 - 0 : Int).natAbs ∧ (linePoints 0 0 3 4)[4]? = some (3, 4) ∧
    (linePoints 0 0 3 3)[3]? = some (3, 3) := by decide
theorem witness_BoxFillCoversTheInterior : ∃ d ∈ dotsOf .boxFill (fresh 240 320 [1, 1, 4, 3, 9, 8]), d.c = 8 :=
  ⟨{ x := 2, y := 2, c := 8 }, by decide, rfl⟩
theorem witness_CircleIsSymmetric : ((3 + 1 : Int), (3 + 3 : Int)) ∈ circlePoints 3 3 3 := by decide
theorem witness_OctantWalkEndsByItsCondition : ((1 : Int), (3 : Int)) ∈ octant 3 := by decide
theorem witness_PutCharPlotsEveryCell : 15 < 16 ∧ 7 < 8 ∧
    (dotsOf .putChar (drawn .portrait 240 320 [10, 20, 0x41, 1, 0]))[8 * 15 + 7]? = some ⟨17, 35, 0⟩ := by decide

/-- All four cases of the tie-break, on accepted axes (the table of section 2.6). -/
theorem witness_FilterRejectsOrAveragesAClosestPair :
    filterAxis 2 #v[102, 102, 102, 100, 100, 100, 103, 103, 103] = some 102 ∧
    filterAxis 2 #v[100, 101, 102, 100, 101, 103, 500, 500, 500] = some 101 ∧
    filterAxis 2 #v[100, 100, 101, 102, 102, 103, 100, 100, 100] = some 100 ∧
    filterAxis 2 #v[100, 100, 100, 101, 101, 101, 102, 102, 102] = some 101 := by decide

theorem witness_TouchFilterVerdict :
    let good := window (Vector.replicate 9 7) (Vector.replicate 9 8)
    let noise := window (Vector.replicate 9 7) #v[100, 101, 102, 500, 501, 499, 900, 901, 902]
    (fresh 240 320 []).regs.swCount ≠ 9 ∧ good.regs.swCount = 9 ∧ noise.regs.swCount = 9 ∧
      filterAxis noise.cfg.threshold noise.regs.swy = none ∧ filterAxis good.cfg.threshold good.regs.swx = some 7 ∧
      filterAxis good.cfg.threshold good.regs.swy = some 8 := by decide

/-- Both outcomes of nine pairs, and a gesture of none: nine equal pairs, an axis of noise, a first poll without touch. -/
theorem witness_TouchAcquirePollsBeforeEveryPair :
    let run := fun (ys : List Word) => after .touchAcquire
      (withEnv (List.replicate 9 .asserted) (ys.flatMap fun y => [7, y]) (fresh 240 320 []))
    let good := run (List.replicate 9 8)
    let noise := run [100, 101, 102, 500, 501, 499, 900, 901, 902]
    let none := after .touchAcquire (withEnv [.deasserted] [] (fresh 240 320 []))
    (good.regs.swCount, noise.regs.swCount, none.regs.swCount) = (9, 9, 0) ∧
      (report good, report noise, report none) = ((false, 0), (true, 4), (true, 5)) := by decide

theorem witness_TouchAcquireStoresTheFilteredPoint :
    let xs : Vector Word 9 := Vector.replicate 9 7
    let ys : Vector Word 9 := #v[100, 101, 102, 500, 501, 499, 900, 901, 902]
    let s := withEnv (List.replicate 9 .asserted) ((List.zip xs.toList ys.toList).flatMap fun p => [p.1, p.2])
      (fresh 240 320 [])
    s.link.env.ready = List.replicate 9 .asserted ++ [] ∧
      s.link.env.touch = ((List.zip xs.toList ys.toList).flatMap fun p => [p.1, p.2]) ++ [] ∧
      filterAxis s.cfg.threshold xs = some 7 ∧ filterAxis s.cfg.threshold ys = none := by decide

theorem witness_CalSolveStoresTheExactMatrix :
    (fresh 240 320 [45, 45, 45, 270, 190, 190, 3388, 920, 3388, 3300, 1200, 2500]).regs.solveDivider ≠ 0 ∧
      (fresh 240 320 [1, 2, 3, 4, 5, 6, 0, 0, 10, 0, 20, 0]).regs.solveDivider = 0 := by decide

theorem witness_CalApplyEvaluatesTheMap : (fresh 240 320 []).regs.divider = 0 ∧ solved.regs.divider ≠ 0 ∧
    ¬ (0 ≤ solved.regs.quotY 0 0) ∧ ((136 : Word).toNat : Int) = solved.regs.quotX 2000 2000 ∧
    ((144 : Word).toNat : Int) = solved.regs.quotY 2000 2000 := by decide

/-- The four clauses of CAL_APPLY_RAW: the state `solved` with a cached point or none. -/
theorem witness_CalApplyRawUsesTheCachedPoint :
    let r := { solved.regs with rawX := 2000, rawY := 2000, rawValid := true }
    solved.regs.rawValid = false ∧ ({ Regs.reset with rawValid := true } : Regs).divider = 0 ∧ r.rawValid = true ∧
      r.divider ≠ 0 ∧ ¬ (0 ≤ r.quotY 0 0) ∧ ((136 : Word).toNat : Int) = r.quotX r.rawX r.rawY ∧
      ((144 : Word).toNat : Int) = r.quotY r.rawX r.rawY := by decide

/-- The solved matrix in a state whose operands are the third screen point. -/
theorem witness_ReferencePointsMapExactly :
    let s := fresh 240 320 [45, 45, 45, 270, 190, 190, 3388, 920, 3388, 3300, 1200, 2500]
    let u := thenOps [1200, 2500] solved
    s.regs.solveDivider ≠ 0 ∧ SameMatrix solved u ∧ u.regs.arg[0] = s.regs.arg[10] ∧
      u.regs.arg[1] = s.regs.arg[11] := ⟨by decide, ⟨rfl, rfl, rfl, rfl, rfl, rfl, rfl⟩, by decide, by decide⟩

theorem witness_SetPointGetPointRoundTrip :
    let s := drawn .portrait 6 5 [5, 4, 9]
    let u := after .setPoint s
    s.regs.orientValid = true ∧ PanelReady s ∧ s.regs.arg[0].toNat < s.area.w ∧ s.regs.arg[1].toNat < s.area.h ∧
      u.link.bus = .display ∧ u.regs.arg[0] = s.regs.arg[0] ∧ u.regs.arg[1] = s.regs.arg[1] :=
  ⟨rfl, ⟨⟨rfl, rfl⟩, rfl⟩, by decide, by decide, rfl, rfl, rfl⟩

/-- The invariant holds after reset and of the state with a command word to take, whose step runs the command. -/
theorem witness_EveryStepKeepsTheInvariant :
    let s := (fresh 240 320 [5]).withFetchWord 16 0x0013
    Inv s ∧ step s = .next (after .clear (fresh 240 320 [5])) :=
  ⟨⟨rfl, rfl, rfl, by decide, ⟨List.Pairwise.nil, fun c h => (List.not_mem_nil h).elim, fun g h => nomatch h⟩,
    ⟨by decide, by decide, by decide, by decide, by decide, by decide, by decide⟩⟩, rfl⟩

theorem witness_ListingRunsTheCommand :
    let s := fresh 240 320 []
    ([5, 258] : List Word).length ≤ 12 ∧ s.regs.busy = false ∧
      perform (listing .setCursor [5, 258]) s = after .setCursor (thenOps [5, 258] s) := ⟨by decide, rfl, rfl⟩

end Sys2Proof.Tests
end

