-- ==== Sys2Proof/Proofs/HostPort.lean ====
section
/-! SUPPORT. The host port, one rule per access: the step that takes it, what a read of each register of the map
answers, what a write of each stores (10_state.md R20 to R31). -/

namespace Sys2Proof.Machine

/-! ### The step that takes an access -/

/-- A step takes the oldest pending access (R22, R26; log entry 2). -/
theorem step_access {s : State} {a : HostAccess} {rest : List HostAccess} (h : s.host = a :: rest) :
    step s = hostAccess a { s with host := rest } := by
  simp only [step, h]

/-- While BUSY = 1 a host write is ignored (R21, R22). -/
theorem hostWrite_busy {s : State} (h : s.regs.busy = true) (i : BitVec 7) (v : Word) :
    hostWrite i v s = .next s := if_pos h

/-- A write of CMD while BUSY = 0 starts the command its word decodes to (R22, R101). -/
theorem hostWrite_command {s : State} {w : Word} {i : Instr} (h : s.regs.busy = false) (hw : decode w = .ok i) :
    hostWrite cmdIndex w s = exec i s := by
  simp [hostWrite, h, issue, hw]

/-- A write of any other index while BUSY = 0 leaves the register file the map gives (R20, R21). -/
theorem writesTo_of_writeReg {s : State} {i : BitVec 7} {v : Word} {r : Regs} (h : s.regs.busy = false)
    (hi : i ≠ cmdIndex) (hr : writeReg i v s.regs = r) : WritesTo s i v r := fun rest => by
  simp [step, hostAccess, hostWrite, h, hi, hr, State.setRegs]

/-- A read of any index but STATUS while BUSY = 0 answers by the register map (R20). -/
theorem readsAs_of_readReg {s : State} {i : BitVec 7} {v : HostVal} (h : s.regs.busy = false) (hi : i ≠ statusIndex)
    (hv : readReg i s.regs = v) : ReadsAs s i v := fun rest => by
  simp [step, hostAccess, hostRead, h, hi, hv]

/-- A read of STATUS while BUSY = 0: one poll, and the word of the flags at that level (R24). -/
theorem hostRead_status_idle {s : State} (h : s.regs.busy = false) : hostRead statusIndex s =
    { s with link := s.link.tpReady.2, reply := some (.half (statusWord s.regs s.link.tpReady.1)) } := by
  simp [hostRead, readStatus, h]

/-! ### The indices -/

/-- An index below 2^7 is the number it is written as. -/
theorem toNat_index {n : Nat} (h : n < 2 ^ 7) : (BitVec.ofNat 7 n).toNat = n := by
  rw [BitVec.toNat_ofNat, Nat.mod_eq_of_lt h]

/-- Two indices differ when their numbers do. -/
theorem index_ne {m n : Nat} (hm : m < 2 ^ 7) (hn : n < 2 ^ 7) (h : n ≠ m) : BitVec.ofNat 7 n ≠ BitVec.ofNat 7 m := by
  rwa [BitVec.toNat_ne, toNat_index hm, toNat_index hn]

theorem index_ne_status {n : Nat} (hn : n < 2 ^ 7) (h : n ≠ 0x11) : BitVec.ofNat 7 n ≠ statusIndex :=
  index_ne (by decide) hn h

theorem index_ne_cmd {n : Nat} (hn : n < 2 ^ 7) (h : n ≠ 0x10) : BitVec.ofNat 7 n ≠ cmdIndex :=
  index_ne (by decide) hn h

/-! ### The read column (R20) -/

theorem readReg_arg (k : Fin 12) (r : Regs) : readReg (BitVec.ofNat 7 k) r = .half r.arg[k] := by
  have hk := k.isLt
  simp (disch := omega) only [readReg, toNat_index, if_pos]
  simp

theorem readReg_swx (k : Fin 9) (r : Regs) : readReg (BitVec.ofNat 7 (0x20 + k)) r = .half r.swx[k] := by
  have hk := k.isLt
  simp (disch := omega) only [readReg, toNat_index, if_pos, if_neg]
  simp

theorem readReg_swy (k : Fin 9) (r : Regs) : readReg (BitVec.ofNat 7 (0x30 + k)) r = .half r.swy[k] := by
  have hk := k.isLt
  simp (disch := omega) only [readReg, toNat_index, if_pos, if_neg]
  simp

/-- ERR_CODE reads with its upper byte 0 (R25). -/
theorem readReg_errCode (r : Regs) : readReg 0x12 r = .half (0#8 ++ r.errCode) :=
  congrArg HostVal.half (BitVec.setWidth_eq_append (w := 16) (by decide))

/-- SW_COUNT reads with its upper twelve bits 0 (R30). -/
theorem readReg_swCount (r : Regs) : readReg 0x39 r = .half (0#12 ++ r.swCount) :=
  congrArg HostVal.half (BitVec.setWidth_eq_append (w := 16) (by decide))

/-- The indices that read 0: CMD and those without a register (R20). -/
def ReadsZero (n : Nat) : Prop :=
  n ∈ [0x0C, 0x0D, 0x0E, 0x0F, 0x10, 0x15, 0x16, 0x17, 0x1D, 0x1E, 0x1F] ∨
    (0x29 ≤ n ∧ n ≤ 0x2F) ∨ (0x3A ≤ n ∧ n ≤ 0x3F) ∨ 0x47 ≤ n

/-- None of them is STATUS. -/
theorem ReadsZero.ne_status {i : BitVec 7} (h : ReadsZero i.toNat) : i ≠ statusIndex := by
  rintro rfl
  exact absurd h (by simp [ReadsZero, statusIndex])

theorem readReg_zero {i : BitVec 7} (h : ReadsZero i.toNat) (r : Regs) : readReg i r = .half 0 := by
  simp only [ReadsZero, List.mem_cons, List.not_mem_nil, or_false] at h
  simp (disch := omega) only [readReg, if_neg]

/-! ### The write column (R20) -/

theorem setIfInBounds_eq_set {α : Type} {n : Nat} (xs : Vector α n) (k : Fin n) (v : α) :
    xs.setIfInBounds k v = xs.set k v := by
  ext j hj
  rw [Vector.getElem_setIfInBounds, Vector.getElem_set]

theorem writeReg_arg (k : Fin 12) (v : Word) (r : Regs) :
    writeReg (BitVec.ofNat 7 k) v r = { r with arg := r.arg.set k v } := by
  have hk := k.isLt
  simp (disch := omega) only [writeReg, toNat_index, if_pos, setIfInBounds_eq_set]

theorem writeReg_swx (k : Fin 9) (v : Word) (r : Regs) :
    writeReg (BitVec.ofNat 7 (0x20 + k)) v r = { r with swx := r.swx.set k v } := by
  have hk := k.isLt
  simp (disch := omega) only [writeReg, toNat_index, if_pos, if_neg, Nat.add_sub_cancel_left, setIfInBounds_eq_set]

theorem writeReg_swy (k : Fin 9) (v : Word) (r : Regs) :
    writeReg (BitVec.ofNat 7 (0x30 + k)) v r = { r with swy := r.swy.set k v } := by
  have hk := k.isLt
  simp (disch := omega) only [writeReg, toNat_index, if_pos, if_neg, Nat.add_sub_cancel_left, setIfInBounds_eq_set]

/-- The indices, CMD aside, a write of which is ignored (R20, R21). -/
def IgnoresWrite (n : Nat) : Prop :=
  (0x0C ≤ n ∧ n ≤ 0x0F) ∨ (0x11 ≤ n ∧ n ≤ 0x1F) ∨ (0x29 ≤ n ∧ n ≤ 0x2F) ∨ 0x3A ≤ n

/-- None of them is CMD. -/
theorem IgnoresWrite.ne_cmd {i : BitVec 7} (h : IgnoresWrite i.toNat) : i ≠ cmdIndex := by
  rintro rfl
  exact absurd h (by simp [IgnoresWrite, cmdIndex])

theorem writeReg_ignored {i : BitVec 7} (h : IgnoresWrite i.toNat) (v : Word) (r : Regs) : writeReg i v r = r := by
  simp only [IgnoresWrite] at h
  simp (disch := omega) only [writeReg, if_neg]

/-! ### The STATUS word -/

/-- The bits of STATUS, one flag each (R24). -/
theorem statusWord_flags (r : Regs) (line : Level) :
    (statusWord r line).getLsbD 0 = r.busy ∧ (statusWord r line).getLsbD 1 = r.err ∧
    (statusWord r line).getLsbD 2 = r.orientValid ∧ (statusWord r line).getLsbD 3 = r.rawValid ∧
    (statusWord r line).getLsbD 4 = r.dispValid ∧ (statusWord r line).getLsbD 5 = r.matrixValid ∧
    (statusWord r line).getLsbD 6 = line.pressed := by
  simp only [statusWord, BitVec.getLsbD_append, BitVec.getLsbD_ofBool]
  simp

/-- Bits 15:7 of STATUS are 0 (R24). -/
theorem statusWord_upper (r : Regs) (line : Level) : (statusWord r line).extractLsb' 7 9 = 0 := by
  ext k hk
  simp (disch := omega) only [statusWord, BitVec.getElem_extractLsb', BitVec.getLsbD_append, if_neg]
  simp

theorem matrixValid_eq (r : Regs) : r.matrixValid = decide (r.divider ≠ 0) := by
  simp [Regs.matrixValid, bne, beq_eq_decide]

theorem pressed_eq (line : Level) : line.pressed = decide (line = .asserted) := by
  cases line <;> rfl

end Sys2Proof.Machine
end

