-- ==== Sys2Proof/Proofs/State.lean ====
section
/-! THEOREMS. The register file (10_state.md): the accesses of the host, the registers a command leaves alone, the
state after reset. -/

namespace Sys2Proof.Machine

/-- What a command answers is what its body leaves, but for BUSY and the report (R240, R241). -/
theorem exec_body {i : Instr} {s t : State} (h : exec i s = .next t) : ∃ err code,
    t.regs = { (bodyOf i (beginCommand s)).state.regs with busy := false, err := err, errCode := code } ∧
    t.link = (bodyOf i (beginCommand s)).state.link ∧ t.cfg = (bodyOf i (beginCommand s)).state.cfg ∧
    t.host = (bodyOf i (beginCommand s)).state.host ∧ t.reply = (bodyOf i (beginCommand s)).state.reply := by
  rw [← exec_next_iff.1 h]
  exact command_state (bodyOf i) s

/-- STATUS after reset: nothing but the live bit 6 (R33). -/
theorem statusWord_reset (line : Level) :
    statusWord State.reset.regs line = if line = .asserted then 0x0040 else 0 := by
  cases line <;> rfl

/-- The panel before initialisation is well formed: no cell is listed and no geometry set (R79). -/
theorem panelReset_wf (c : Cfg) : PanelWf c Panel.reset where
  form := reset_memory_wf
  inside := fun _ h => absurd h List.not_mem_nil
  legal := fun _ h => absurd h (Option.some_ne_none _).symm

/-- The matrix after reset is zero (R33). -/
theorem matrixBounded_reset : MatrixBounded Regs.reset := by
  constructor <;> decide

/-- Settles O6: the read column of the register map, register by register. -/
theorem hostReadsFollowTheRegisterMap : Obligations.HostReadsFollowTheRegisterMap := by
  intro s h
  have named {i : BitVec 7} {v : HostVal} := readsAs_of_readReg (i := i) (v := v) h
  exact ⟨fun k => named (index_ne_status (by omega) (by omega)) (readReg_arg k _),
    fun k => named (index_ne_status (by omega) (by omega)) (readReg_swx k _),
    fun k => named (index_ne_status (by omega) (by omega)) (readReg_swy k _),
    named (by decide) (readReg_errCode _), named (by decide) rfl, named (by decide) rfl, named (by decide) rfl,
    named (by decide) rfl, named (by decide) rfl, named (by decide) rfl, named (by decide) rfl,
    named (by decide) (readReg_swCount _), named (by decide) rfl, named (by decide) rfl, named (by decide) rfl,
    named (by decide) rfl, named (by decide) rfl, named (by decide) rfl, named (by decide) rfl,
    fun i hi => named (ReadsZero.ne_status hi) (readReg_zero hi _)⟩

/-- Settles O7: the poll `tpReady` and the word of the flags at the level polled. -/
theorem statusReadPollsTheLine : Obligations.StatusReadPollsTheLine := by
  intro s rest hs h
  obtain ⟨b0, b1, b2, b3, b4, b5, b6⟩ := statusWord_flags s.regs s.link.tpReady.1
  refine ⟨s.link.tpReady.1, s.link.tpReady.2.env, statusWord s.regs s.link.tpReady.1, ?_, b0.trans h, b1, b2, b3, b4,
    b5.trans (matrixValid_eq _), b6.trans (pressed_eq _), statusWord_upper _ _⟩
  rw [step_access hs]
  exact congrArg Host.Outcome.next (hostRead_status_idle (s := { s with host := rest }) h)

/-- Settles O8: the write column of the register map, register by register. -/
theorem hostWritesReachOnlyWritableRegisters : Obligations.HostWritesReachOnlyWritableRegisters := by
  intro s v h
  have named {i : BitVec 7} {r : Regs} := writesTo_of_writeReg (i := i) (v := v) (r := r) h
  exact ⟨fun k => named (index_ne_cmd (by omega) (by omega)) (writeReg_arg k v _),
    fun k => named (index_ne_cmd (by omega) (by omega)) (writeReg_swx k v _),
    fun k => named (index_ne_cmd (by omega) (by omega)) (writeReg_swy k v _),
    named (by decide) rfl, fun i hi => named (IgnoresWrite.ne_cmd hi) (writeReg_ignored hi v _)⟩

/-- Settles O10, by what every body keeps. -/
theorem commandsKeepOperandsAndConfiguration : Obligations.CommandsKeepOperandsAndConfiguration := by
  intro i s t h
  obtain ⟨_, _, hregs, _, hcfg, hhost, hreply⟩ := exec_body h
  have hb := body_kept i (beginCommand s)
  exact ⟨by rw [hregs]; exact hb.arg, hcfg.trans hb.cfg, hhost.trans hb.host, hreply.trans hb.reply⟩

/-- Settles O53, by the registers each body can write. -/
theorem resultsAndWindowHaveTheirWriters : Obligations.ResultsAndWindowHaveTheirWriters := by
  intro i s t h
  obtain ⟨_, _, hregs, _⟩ := exec_body h
  rw [hregs]
  rcases body_regs i (beginCommand s) with hb | ⟨hi, _, hb⟩ | ⟨_, _, hb⟩ | ⟨hi, _, _, _, _, _, _, hb⟩ |
    ⟨_, _, _, _, hb⟩ | ⟨_, hb | hb⟩ | ⟨hi, hb | ⟨_, _, hb⟩⟩ <;> rw [hb]
  -- READ_DATA, READ_REG, GET_POINT; then TOUCH_ACQUIRE; then an apply that stores its point.
  case inr.inl =>
    exact ⟨fun hn => (hn (List.mem_append_left [Instr.calApply, .calApplyRaw] hi)).elim, fun _ => rfl,
      fun _ => ⟨rfl, rfl, rfl⟩⟩
  case inr.inr.inr.inl => exact ⟨fun _ => rfl, fun _ => rfl, fun hn => absurd hi hn⟩
  case inr.inr.inr.inr.inr.inr.inr =>
    exact ⟨fun hn => (hn (List.mem_append_right [Instr.readData, .readReg, .getPoint] hi)).elim, fun hn => absurd hi hn,
      fun _ => ⟨rfl, rfl, rfl⟩⟩
  all_goals exact ⟨fun _ => rfl, fun _ => rfl, fun _ => ⟨rfl, rfl, rfl⟩⟩

/-- Settles O3, by the rules of the step and of a CMD write. -/
theorem stepRunsTheDecodedCommand : Obligations.StepRunsTheDecodedCommand := by
  intro s w rest i hs h hw
  rw [step_access hs]
  exact hostWrite_command h hw

/-- Settles O5, by the rules of the step and of a write while BUSY = 1. -/
theorem busyIgnoresHostWrites : Obligations.BusyIgnoresHostWrites := by
  intro s i v rest hs h
  rw [step_access hs]
  exact hostWrite_busy (s := { s with host := rest }) h i v

/-- Settles O11, field by field of `Regs.reset`. -/
theorem resetLeavesNothingValid : Obligations.ResetLeavesNothingValid := by
  refine ⟨rfl, rfl, rfl, statusWord_reset, ?_⟩
  and_intros <;> rfl

/-- Settles O57, clause by clause of the invariant. -/
theorem invariantHoldsAtReset : Obligations.InvariantHoldsAtReset where
  idle := rfl
  bus := rfl
  report := rfl
  code := Nat.zero_le 8
  panel := panelReset_wf Config.board
  matrix := matrixBounded_reset

end Sys2Proof.Machine
end

