-- ==== Sys2Proof/Proofs/Transport.lean ====
section
/-! SUPPORT. What a command does on the transport side, said once: the frames it sends and the bus after it
(20_memory.md R61 to R63), and what the panel contract answers to its frames (R70 to R74). -/

namespace Sys2Proof.Machine

/-! ### What the contract says of a pixel -/

/-- The contract says `v` of a pixel when it is in force and that cell of the geometry holds `v` (R70). -/
theorem pixel_eq_some_iff {p : Panel} {x y v : Word} : p.pixel x y = some v ↔
    p.dead = false ∧ ∃ g, p.geom = some g ∧ x.toNat < g.w ∧ y.toNat < g.h ∧ p.cell x y = v := by
  unfold Panel.pixel
  cases p.geom with
  | none => simp
  | some g => cases p.dead <;> simp [and_assoc]

/-- A contract that is void says nothing of any pixel (R70). -/
theorem pixel_dead {p : Panel} (h : p.dead = true) (x y : Word) : p.pixel x y = none := by
  unfold Panel.pixel
  cases p.geom <;> simp [h]

/-- The bit of a converted colour: the outer five-bit fields change places (R144). -/
theorem getLsbD_swapRB (v : Word) {k : Nat} (hk : k < 16) :
    (swapRB v).getLsbD k = v.getLsbD (if k < 5 then k + 11 else if k < 11 then k else k - 11) := by
  simp only [swapRB, BitVec.getLsbD_append, BitVec.getLsbD_extractLsb']
  obtain h | ⟨h, h'⟩ | h : k < 5 ∨ (5 ≤ k ∧ k < 11) ∨ 11 ≤ k := by omega
  · simp [h, Nat.add_comm]
  · simp [show ¬ k < 5 by omega, show k - 5 < 6 by omega, show 5 + (k - 5) = k by omega, h']
  · simp [show ¬ k < 5 by omega, show ¬ k < 11 by omega, show ¬ k - 5 < 6 by omega,
      show k - 5 - 6 = k - 11 by omega, show k - 11 < 5 by omega]

/-- The conversion is its own inverse (R144). -/
theorem swapRB_swapRB (v : Word) : swapRB (swapRB v) = v := by
  refine BitVec.eq_of_getLsbD_eq fun k hk => ?_
  rw [getLsbD_swapRB _ hk, getLsbD_swapRB _ (by split_ifs <;> omega)]
  congr 1
  split_ifs <;> omega

/-- With the index at 0x22 and the latch valid, a read returns the pixel at the cursor, red and blue exchanged (R73). -/
theorem readValue_of_pixel {p : Panel} {v : Word} (hir : p.ir = 0x22) (hr : p.rdv = true)
    (hv : p.pixel p.ax p.ay = some v) : p.readValue = some (swapRB v) := by
  obtain ⟨hd, g, hg, hx, hy, rfl⟩ := pixel_eq_some_iff.1 hv
  simp [Panel.readValue, Panel.cursorInside, hd, hir, hr, hg, hx, hy]

/-- A read frame moves the latch alone, and no pixel (R73). -/
theorem latch_pixel (p : Panel) (x y : Word) : p.latch.pixel x y = p.pixel x y := by
  unfold Panel.latch
  split_ifs <;> rfl

/-! ### Frames on a panel in force -/

/-- A register write on a panel in force: the index, then the data write at it (R71, R72, R124). -/
theorem memWrite_panel {c : Cfg} {l : Link} (hb : l.bus = .display) (hd : l.panel.dead = false) (a : Byte) (v : Word) :
    (l.memWrite c a v).panel = (l.panel.indexWrite a).dataWrite c v := by
  have hb' := (writeIndex_sent c a l).bus.trans hb
  rw [Link.memWrite, writeData_panel hb', writeIndex_panel hb, receive_alive hd]
  exact receive_alive (p := l.panel.indexWrite a) hd (.data v)

/-- An index frame moves no pixel (R71). -/
theorem writeIndex_pixel {c : Cfg} {l : Link} (hb : l.bus = .display) (a : Byte) (x y : Word) :
    (l.writeIndex c a).panel.pixel x y = l.panel.pixel x y := by
  rw [writeIndex_panel hb, Panel.receive]
  split_ifs <;> rfl

/-- A read frame moves no pixel (R73). -/
theorem readData_pixel {c : Cfg} {l : Link} (hb : l.bus = .display) (x y : Word) :
    (l.readData c).2.panel.pixel x y = l.panel.pixel x y := by
  rw [readData_panel hb, Panel.receive]
  split_ifs
  · rfl
  · exact latch_pixel _ x y

/-- `ReadPixel` of a pixel the contract knows returns it in the order it was written in (R78, R143, R144). -/
theorem readPixel_value {c : Cfg} {l : Link} {x y v : Word} (hb : l.bus = .display)
    (hv : l.panel.pixel x y = some v) : (l.readPixel c x y).1 = v := by
  obtain ⟨hd, -⟩ := pixel_eq_some_iff.1 hv
  have b1 := (setCursor_sent c x y l).bus.trans hb
  have b2 := (writeIndex_sent c 0x22 (l.setCursor c x y)).bus.trans b1
  have b3 := (readData_sent c ((l.setCursor c x y).writeIndex c 0x22)).bus.trans b2
  have hp : (((l.setCursor c x y).writeIndex c 0x22).readData c).2.panel =
      { l.panel with ir := 0x22, ax := x, ay := y, rdv := true } := by
    rw [readData_panel b2, writeIndex_panel b1, setCursor_panel hb hd]
    simp [Panel.receive, Panel.indexWrite, Panel.latch, hd]
  have hr : (((l.setCursor c x y).writeIndex c 0x22).readData c).2.panel.readValue = some (swapRB v) := by
    rw [hp]
    exact readValue_of_pixel rfl rfl hv
  rw [Link.readPixel, readData_value b3 hr, swapRB_swapRB]

/-! ### The transport side of a body -/

theorem exec_link {i : Instr} {s t : State} (h : exec i s = .next t) :
    t.link = (bodyOf i (beginCommand s)).state.link := by
  obtain ⟨_, _, _, hl, _⟩ := exec_body h
  exact hl

/-- The commands that make no exchange and no poll (R120, R209, R225 to R227). -/
def silent : List Instr := [.nop, .touchFilter, .calSolve, .calApply, .calApplyRaw]

theorem body_link_silent {i : Instr} (h : i ∈ silent) (s : State) : (bodyOf i s).state.link = s.link := by
  simp only [silent, List.mem_cons, List.not_mem_nil, or_false] at h
  rcases h with rfl | rfl | rfl | rfl | rfl
  · rfl
  · simp only [bodyOf, touchFilterBody]
    split_ifs
    · rfl
    · exact runFilter_link _
  · simp only [bodyOf, calSolveBody]
    split_ifs <;> rfl
  · exact storePoint_link _ _
  · simp only [bodyOf, calApplyRawBody]
    split_ifs
    · exact storePoint_link _ _
    · rfl

/-- The transport side of TOUCH_ACQUIRE is that of its acquisition (R206). -/
theorem body_link_touchAcquire (s : State) :
    (bodyOf .touchAcquire s).state.link = (acquireLoop 9 0 (clearRawValid s)).2.link := by
  simp only [bodyOf, touchAcquireBody]
  split_ifs
  · rfl
  · exact runFilter_link _

theorem gated_sent {f : State → State} {s : State} {txs : List (List Byte)} (h : Sent s.link (f s).link txs) :
    ∃ txs, Sent s.link (gated f s).state.link txs := by
  unfold gated
  split_ifs
  · exact ⟨txs, h⟩
  · exact ⟨[], Sent.refl _⟩

/-- Every body but the acquisition's only sends frames (R61, R62). -/
theorem body_sent {i : Instr} (h : i ≠ .touchAcquire) (s : State) :
    ∃ txs, Sent s.link (bodyOf i s).state.link txs := by
  by_cases hp : i ∈ plotters
  · rw [bodyOf_plotter hp]
    exact gated_sent (f := fun t => t.draw (dotsOf i t)) (plotAll_sent s.cfg s.area _ s.link)
  by_cases hs : i ∈ silent
  · rw [body_link_silent hs]
    exact ⟨[], Sent.refl _⟩
  cases i with
  | setPoint | line | box | boxFill | circle | circleFill | putChar => exact absurd (by decide) hp
  | nop | touchFilter | calSolve | calApply | calApplyRaw => exact absurd (by decide) hs
  | touchAcquire => exact absurd rfl h
  | writeIndex => exact ⟨_, writeIndex_sent s.cfg _ s.link⟩
  | writeData => exact ⟨_, writeData_sent s.cfg _ s.link⟩
  | readData => exact ⟨_, readData_sent s.cfg s.link⟩
  | writeReg => exact ⟨_, memWrite_sent s.cfg _ _ s.link⟩
  | readReg => exact ⟨_, memRead_sent s.cfg _ s.link⟩
  | setCursor => exact ⟨_, setCursor_sent s.cfg _ _ s.link⟩
  | getPoint => exact ⟨_, readPixel_sent s.cfg _ _ s.link⟩
  | clear =>
    exact gated_sent (f := fun t => t.setLink (t.link.clear t.cfg t.area (t.regs.x 0)))
      (clear_sent s.cfg s.area _ s.link)
  | setOrient =>
    simp only [bodyOf, setOrientBody]
    split
    · exact ⟨[], Sent.refl _⟩
    · exact ⟨_, memWrite_sent s.cfg _ _ s.link⟩

/-- The acquisition appends polls and touch readings, and no exchange (R201). -/
theorem acquireLoop_framed (s : State) : ∃ evs, (acquireLoop 9 0 s).2.events = s.events ++ evs ∧
    ∀ e ∈ evs, e.framed := by
  obtain ⟨pairs, -, -, he, -⟩ := acquireLoop_spec 9 0 s (by omega)
  refine ⟨_, he.trans (List.append_assoc _ _ _), fun e hmem => ?_⟩
  rcases List.mem_append.1 hmem with hmem | hmem
  · simp only [List.mem_flatMap, List.mem_cons, List.not_mem_nil, or_false] at hmem
    obtain ⟨_, -, rfl | rfl | rfl⟩ := hmem <;> trivial
  · split_ifs at hmem
    · cases hmem
    · rw [List.mem_singleton.1 hmem]
      trivial

/-! ### A void contract -/

/-- No command moves a panel whose contract is void (R70; log entry 6). -/
theorem exec_panel_dead {i : Instr} {s t : State} (h : exec i s = .next t) (hd : s.link.panel.dead = true) :
    t.link.panel = s.link.panel :=
  exec_keeps_panel (P := fun p => p = s.link.panel) (fun p k hp => by rw [hp, receive_dead hd]) h rfl

/-! ### SET_ORIENT -/

/-- An operand above 1 (R148). -/
theorem setOrientBody_invalid {s : State} (h : orientOperand (s.regs.x 0) = none) :
    setOrientBody s = .raised .badOrient s := by
  simp only [setOrientBody, h]

/-- An operand that is an orientation (R148). -/
theorem setOrientBody_valid {s : State} {o : Orient} (h : orientOperand (s.regs.x 0) = some o) :
    setOrientBody s = .ok ((s.setRegs { s.regs with orient := o, orientValid := true }).setLink
      (s.link.memWrite s.cfg (scanReg s.cfg) (scanValue s.cfg o))) := by
  simp only [setOrientBody, h]

/-- A SET_ORIENT without an error stored an orientation and wrote its scan value (R148). -/
theorem exec_setOrient_ok {s t : State} (h : exec .setOrient s = .next t) (herr : t.regs.err = false) :
    ∃ o, t = (s.setRegs { clearedRegs s.regs with orient := o, orientValid := true }).setLink
      (s.link.memWrite s.cfg (scanReg s.cfg) (scanValue s.cfg o)) := by
  rw [← exec_next_iff.1 h] at herr ⊢
  cases ho : orientOperand ((beginCommand s).regs.x 0) with
  | none =>
    have hfail := command_raised (setOrientBody_invalid ho)
    rw [bodyOf, hfail] at herr
    cases herr
  | some o => exact ⟨o, command_ok (setOrientBody_valid ho)⟩

/-! ### The commands drawn by `Plot` -/

theorem dotsOf_beginCommand (i : Instr) (s : State) : dotsOf i (beginCommand s) = dotsOf i s := by
  cases i <;> rfl

/-- With the orientation set, a command drawn by `Plot` performs its calls (R141, R168). -/
theorem exec_plotter {i : Instr} (hi : i ∈ plotters) {s : State} (hv : s.regs.orientValid = true) :
    exec i s = .next (endCommand ((beginCommand s).draw (dotsOf i s))) := by
  rw [exec_eq, bodyOf_plotter hi, command_gated_ok hv, dotsOf_beginCommand]

/-- A command drawn by `Plot` on a ready panel leaves it ready, each pixel with its last colour (R142, R168). -/
theorem plotter_ready {i : Instr} (hi : i ∈ plotters) {s : State} (hv : s.regs.orientValid = true)
    (hr : PanelReady s) : ∃ t, exec i s = .next t ∧ PanelReady t ∧
      ∀ x y : Word, x.toNat < s.area.w → y.toNat < s.area.h →
        t.link.panel.pixel x y = (lastColour (dotsOf i s) x y).or (s.link.panel.pixel x y) := by
  obtain ⟨-, hw, -, hh⟩ := area_bounds s
  obtain ⟨⟨hb, ha, hg⟩, hpx⟩ :=
    plotAll_ready (c := s.cfg) (g := s.area) (by omega) (by omega) (dotsOf i s) hr.ready
  exact ⟨_, exec_plotter hi hv, ⟨⟨hb, ha⟩, hg⟩, hpx⟩

end Sys2Proof.Machine
end

