-- ==== Sys2Proof/Proofs/Memory.lean ====
section
/-! THEOREMS. The transport and the panel contract (20_memory.md): the events of a command, the bus, the panel's
registers, its pixels and its geometry. -/

namespace Sys2Proof.Machine

/-- Settles O50: every body but TOUCH_ACQUIRE's only sends frames, and that one only polls and reads the touch side. -/
theorem eventsAreOnlyAppended : Obligations.EventsAreOnlyAppended := by
  intro i s t h
  suffices ∃ evs, t.events = s.events ++ evs ∧ ∀ e ∈ evs, e.framed by
    obtain ⟨evs, he, hf⟩ := this
    exact ⟨evs, he, fun tx rx hm => hf _ hm⟩
  rw [State.events, exec_link h]
  by_cases hi : i = .touchAcquire
  · subst hi
    rw [body_link_touchAcquire]
    exact acquireLoop_framed (clearRawValid (beginCommand s))
  · obtain ⟨_, -, evs, he, -, hf⟩ := body_sent hi (beginCommand s)
    exact ⟨evs, he, hf⟩

/-- Settles O51: frames leave the bus alone, and the acquisition comes back to the display. -/
theorem busStaysOnTheDisplay : Obligations.BusStaysOnTheDisplay := by
  intro i s t h hb
  rw [exec_link h]
  by_cases hi : i = .touchAcquire
  · subst hi
    rw [body_link_touchAcquire]
    exact acquireLoop_bus 9 0 _ hb
  · obtain ⟨_, hsent⟩ := body_sent hi (beginCommand s)
    exact hsent.bus.trans hb

/-- Settles O55: a panel whose contract is void does not move. -/
theorem voidPanelStaysVoid : Obligations.VoidPanelStaysVoid := by
  intro i s t h hd
  rw [exec_panel_dead h hd]
  exact ⟨hd, pixel_dead hd⟩

/-- Settles O17, by everything a data write does to a panel in force. -/
theorem panelDataWriteFollowsTheIndex : Obligations.PanelDataWriteFollowsTheIndex := by
  rintro s t ⟨hb, hd⟩ h
  have hp : t.link.panel = s.link.panel.dataWrite s.cfg s.regs.arg[0] := by
    rw [exec_link h]
    exact (writeData_panel hb _).trans (receive_alive hd _)
  rw [hp]
  exact dataWrite_follows s.cfg hd _

/-- Settles O19: the read frame sets the latch, and its value is the panel's answer. -/
theorem panelReadLatchesThenReturnsThePixel : Obligations.PanelReadLatchesThenReturnsThePixel := by
  rintro s t ⟨hb, hd⟩ hir h
  obtain ⟨_, _, hregs, hlink, -⟩ := exec_body h
  constructor
  · have hl : s.link.panel.latch = { s.link.panel with rdv := true } := by simp [Panel.latch, hd, hir]
    rw [hlink, ← hl]
    exact (readData_panel hb).trans (receive_alive hd _)
  · intro v hr hv
    rw [hregs]
    exact readData_value hb (readValue_of_pixel hir hr hv)

/-- Settles O30: the one register write of SET_ORIENT is at the scan-direction register, and its value selects the
area of the new orientation. -/
theorem setOrientAgreesTheGeometry : Obligations.SetOrientAgreesTheGeometry := by
  rintro s t ⟨hb, hd⟩ h herr hscan
  obtain ⟨o, rfl⟩ := exec_setOrient_ok h herr
  have hp := memWrite_panel (c := s.cfg) hb hd (scanReg s.cfg) (scanValue s.cfg o)
  obtain ⟨-, -, -, -, hfollows, -⟩ :=
    dataWrite_follows s.cfg (p := s.link.panel.indexWrite (scanReg s.cfg)) hd (scanValue s.cfg o)
  obtain ⟨hg, ha, hpx⟩ := hfollows rfl o rfl hscan
  rw [← hp] at hg ha hpx
  exact ⟨⟨⟨(memWrite_sent s.cfg _ _ s.link).bus.trans hb, ha⟩, hg⟩, hpx⟩

/-- Settles O54: on a void contract nothing moves; on one in force these commands write the index, the cursor and the
latch at most. -/
theorem otherCommandsKeepEveryPixel : Obligations.OtherCommandsKeepEveryPixel := by
  intro i hi s t hb h x y
  cases hd : s.link.panel.dead with
  | true => rw [exec_panel_dead h hd]
  | false =>
    rw [exec_link h]
    by_cases hs : i ∈ silent
    · rw [body_link_silent hs]
      rfl
    cases i with
    | nop | touchFilter | calSolve | calApply | calApplyRaw => exact absurd (by decide) hs
    | writeData | writeReg | setPoint | clear | setOrient | line | box | boxFill | circle | circleFill | putChar =>
      exact absurd hi (by decide)
    | writeIndex => exact writeIndex_pixel hb _ x y
    | readData => exact readData_pixel hb x y
    | readReg =>
      exact (readData_pixel ((writeIndex_sent s.cfg _ s.link).bus.trans hb) x y).trans (writeIndex_pixel hb _ x y)
    | setCursor => exact congrArg (·.pixel x y) (setCursor_panel hb hd _ _)
    | getPoint => exact congrArg (·.pixel x y) (readPixel_panel hb hd _ _)
    | touchAcquire => rw [body_link_touchAcquire, acquireLoop_panel]; rfl

/-- Settles O56: SET_POINT is one call of `Plot`, and `ReadPixel` of a known pixel returns it. -/
theorem setPointGetPointRoundTrip : Obligations.SetPointGetPointRoundTrip := by
  intro s hv hr hx hy
  obtain ⟨t, ht, htr, hpx⟩ := plotter_ready (i := .setPoint) (by decide) hv hr
  have hc : t.link.panel.pixel s.regs.arg[0] s.regs.arg[1] = some s.regs.arg[2] := by
    rw [hpx _ _ hx hy]
    simp [lastColour, dotsOf, pointDots, Regs.xInt, Regs.x]
  refine ⟨t, ht, htr, hc, fun u hub hu h0 h1 => ⟨_, exec_eq .getPoint u, ?_⟩⟩
  rw [hc, ← h0, ← h1] at hu
  exact readPixel_value hub hu

end Sys2Proof.Machine
end

