-- ==== Sys2Proof/Proofs/Words.lean ====
section
/-! SUPPORT. The words the DFC takes and sends, and the host's listing lines: the decoder and the opcode map
(30_encoding.md R100 to R104), the fields of the start bytes (R105, R106), the accesses of a line (R112). -/

namespace Sys2Proof

open Machine

/-! ### The decoder and the encoder -/

/-- The law of the encoding, for every command. -/
theorem encoding_statement : ∀ i, Laws.Encoding.Statement i
  | .nop => Laws.Encoding.nop
  | .writeIndex => Laws.Encoding.writeIndex
  | .writeData => Laws.Encoding.writeData
  | .readData => Laws.Encoding.readData
  | .writeReg => Laws.Encoding.writeReg
  | .readReg => Laws.Encoding.readReg
  | .setCursor => Laws.Encoding.setCursor
  | .setPoint => Laws.Encoding.setPoint
  | .getPoint => Laws.Encoding.getPoint
  | .clear => Laws.Encoding.clear
  | .setOrient => Laws.Encoding.setOrient
  | .line => Laws.Encoding.line
  | .box => Laws.Encoding.box
  | .boxFill => Laws.Encoding.boxFill
  | .circle => Laws.Encoding.circle
  | .circleFill => Laws.Encoding.circleFill
  | .putChar => Laws.Encoding.putChar
  | .touchAcquire => Laws.Encoding.touchAcquire
  | .touchFilter => Laws.Encoding.touchFilter
  | .calSolve => Laws.Encoding.calSolve
  | .calApply => Laws.Encoding.calApply
  | .calApplyRaw => Laws.Encoding.calApplyRaw

/-- The round trip (R101, R103). -/
theorem decode_encode (i : Instr) : decode (encode i) = .ok i := by
  obtain ⟨-, h, -⟩ := encoding_statement i
  exact h

/-- The opcode map gives a command at its own opcode only (R103). -/
theorem opcodeOf_of_commandOf {b : Byte} {i : Instr} (h : commandOf b = some i) : opcodeOf i = b := by
  have rows : ∀ row ∈ opcodeMap, opcodeOf row.2 = row.1 := by decide
  obtain ⟨_, _, hmap, -⟩ := List.lookup_eq_some_iff.1 h
  exact rows (b, i) (hmap ▸ List.mem_append_right _ List.mem_cons_self)

/-- A word is a command when its upper byte is zero and the map has its opcode (R101). -/
theorem decode_eq_ok_iff {w : Word} {i : Instr} :
    decode w = .ok i ↔ (splitWord w).zero = 0 ∧ commandOf (splitWord w).opcode = some i := by
  unfold decode
  split_ifs with hz
  · cases commandOf (splitWord w).opcode <;> simp [hz]
  · exact ⟨nofun, fun h => absurd h.1 hz⟩

/-- The two fields of a command word make it up (R100). -/
theorem zero_append_opcode (w : Word) : (splitWord w).zero ++ (splitWord w).opcode = w :=
  joinBytes_hi_lo w

/-- A word that decodes to a command is that command's word (R101, R104). -/
theorem eq_encode_of_decode {w : Word} {i : Instr} (h : decode w = .ok i) : w = encode i := by
  obtain ⟨hz, hop⟩ := decode_eq_ok_iff.1 h
  calc w = (splitWord w).zero ++ (splitWord w).opcode := (zero_append_opcode w).symm
    _ = (0 : Byte) ++ opcodeOf i := by rw [hz, opcodeOf_of_commandOf hop]

namespace Machine

/-! ### The start bytes -/

/-- The fields of a start byte (R105). -/
theorem startByte_fields (c : Cfg) (rs rw : BitVec 1) :
    (startByte c rs rw).extractLsb' 3 5 = c.startPrefix ∧ (startByte c rs rw).extractLsb' 2 1 = rs ∧
    (startByte c rs rw).extractLsb' 1 1 = rw ∧ (startByte c rs rw).extractLsb' 0 1 = c.startReserved := by
  simp (disch := decide) only [startByte, BitVec.extractLsb'_append_eq_of_le, BitVec.extractLsb'_append_eq_of_add_le,
    Nat.reduceSub, BitVec.extractLsb'_eq_self, and_self]

/-! ### Listing lines -/

/-- The ARG registers with the operands of a listing line in ARG0 upward and the others as they were (R112). -/
def placeOperands (ops : List Word) (arg : Vector Word 12) : Vector Word 12 :=
  Vector.ofFn fun k => ops.getD k.val arg[k]

theorem placeOperands_nil (arg : Vector Word 12) : placeOperands [] arg = arg := by
  simp [placeOperands]

/-- One more operand goes to the next ARG register. -/
theorem placeOperands_concat {ops : List Word} (h : ops.length < 12) (v : Word) (arg : Vector Word 12) :
    placeOperands (ops ++ [v]) arg = (placeOperands ops arg).set ops.length v := by
  ext j hj
  rw [Vector.getElem_set, placeOperands, placeOperands, Vector.getElem_ofFn, Vector.getElem_ofFn]
  obtain hlt | rfl | hgt := lt_trichotomy j ops.length
  · rw [if_neg hlt.ne', List.getD_append _ _ _ _ hlt]
  · simp
  · rw [if_neg hgt.ne, List.getD_eq_default _ _ hgt.le, List.getD_eq_default _ _ (by simpa using hgt)]

/-- An ARG write while BUSY = 0 (R20, R21). -/
theorem performOne_arg {s : State} (h : s.regs.busy = false) (k : Fin 12) (v : Word) :
    performOne s (.write (BitVec.ofNat 7 k) v) = s.setRegs { s.regs with arg := s.regs.arg.set k v } := by
  have hk : BitVec.ofNat 7 k ≠ cmdIndex := index_ne_cmd (by omega) (by omega)
  simp [performOne, hostAccess, hostWrite, h, hk, writeReg_arg]

/-- A CMD write of a command's word while BUSY = 0 runs the command (R22, R101). -/
theorem performOne_command {i : Instr} {s t : State} (h : s.regs.busy = false) (ht : exec i s = .next t) :
    performOne s (.write cmdIndex (encode i)) = t := by
  simp [performOne, hostAccess, hostWrite_command h (decode_encode i), ht]

/-- The operand writes of a listing line put the operands in place (R112). -/
theorem perform_operands {s : State} (h : s.regs.busy = false) {ops : List Word} (hlen : ops.length ≤ 12) :
    perform (ops.mapIdx fun k v => .write (BitVec.ofNat 7 k) v) s =
      s.setRegs { s.regs with arg := placeOperands ops s.regs.arg } := by
  induction ops using List.reverseRecOn with
  | nil => rw [placeOperands_nil]; rfl
  | append_singleton ops v ih =>
    rw [List.length_append, List.length_singleton] at hlen
    rw [List.mapIdx_concat, perform, List.foldl_concat, ← perform, ih (by omega), placeOperands_concat hlen]
    exact performOne_arg (s := s.setRegs { s.regs with arg := placeOperands ops s.regs.arg }) h ⟨ops.length, hlen⟩ v

end Machine

end Sys2Proof
end

