-- ==== Sys2Proof/Proofs/Encoding.lean ====
section
/-! THEOREMS. The encoding (30_encoding.md): the opcode map, the start bytes, the listing line. -/

namespace Sys2Proof.Machine

/-- Settles O2: the round trip, and that a word which decodes is the encoding. -/
theorem decodeInvertsEncode : Obligations.DecodeInvertsEncode := by
  intro w i
  constructor
  · exact eq_encode_of_decode
  · rintro rfl
    exact decode_encode i

/-- Settles O59: each operand write stores in the next ARG register, and the CMD write runs the command. -/
theorem listingRunsTheCommand : Obligations.ListingRunsTheCommand := by
  intro i ops s t hlen h ht
  rw [listing, perform, List.foldl_concat, ← perform, perform_operands h hlen]
  exact performOne_command (s := s.setRegs { s.regs with arg := placeOperands ops s.regs.arg }) h ht

/-- Settles O1, by the round trip of each command, whose encoding is the word written out. -/
theorem assignedWordsDecode : Obligations.AssignedWordsDecode :=
  ⟨decode_encode .nop, decode_encode .writeIndex, decode_encode .writeData, decode_encode .readData,
    decode_encode .writeReg, decode_encode .readReg, decode_encode .setCursor, decode_encode .setPoint,
    decode_encode .getPoint, decode_encode .clear, decode_encode .setOrient, decode_encode .line,
    decode_encode .box, decode_encode .boxFill, decode_encode .circle, decode_encode .circleFill,
    decode_encode .putChar, decode_encode .touchAcquire, decode_encode .touchFilter, decode_encode .calSolve,
    decode_encode .calApply, decode_encode .calApplyRaw⟩

/-- Settles O14, by the fields of a start byte, and the model's laws for the distinctness. -/
theorem startBytesAreDistinct : Obligations.StartBytesAreDistinct := by
  intro c
  obtain ⟨wiPrefix, wiRs, wiRw, wiReserved⟩ := startByte_fields c (~~~ c.rsData) (~~~ c.rwRead)
  obtain ⟨wdPrefix, wdRs, wdRw, wdReserved⟩ := startByte_fields c c.rsData (~~~ c.rwRead)
  obtain ⟨rdPrefix, rdRs, rdRw, rdReserved⟩ := startByte_fields c c.rsData c.rwRead
  refine ⟨?_, wiRs, wdRs, rdRs, wiRw, wdRw, rdRw, sbWI_ne_sbWD c, sbWD_ne_sbRD c, sbWI_ne_sbRD c⟩
  rintro _ (rfl | rfl | rfl)
  · exact ⟨wiPrefix, wiReserved⟩
  · exact ⟨wdPrefix, wdReserved⟩
  · exact ⟨rdPrefix, rdReserved⟩

end Sys2Proof.Machine
end

