-- ==== Sys2Proof/Proofs/Frames.lean ====
section
/-! SUPPORT. What a command of the transport side answers (60_exceptions.md R240), the events of its frames
(20_memory.md R61, R62), and the pixels and the index after a data write on a panel (R72). -/

namespace Sys2Proof.Machine

/-! ### What a command of the transport side answers -/

/-- A command whose body replaces the transport side alone clears the report and changes nothing else (R240). -/
theorem exec_of_setLink {i : Instr} {s : State} {l : Link}
    (h : bodyOf i (beginCommand s) = .ok ((beginCommand s).setLink l)) :
    exec i s = .next { s with regs := clearedRegs s.regs, link := l } := by
  rw [exec_eq, command_ok h]
  rfl

/-- A command whose body stores a received word clears the report and changes RES0 and the transport side (R23, R240). -/
theorem exec_of_storeRes0 {i : Instr} {s : State} {r : Word × Link}
    (h : bodyOf i (beginCommand s) = .ok (storeRes0 (beginCommand s) r)) :
    exec i s = .next { s with regs := { clearedRegs s.regs with res0 := r.1 }, link := r.2 } := by
  rw [exec_eq, command_ok h]
  rfl

/-- The event of a frame (R61, R62). -/
theorem frame_trace (c : Cfg) (tx : List Byte) (l : Link) :
    (l.frame c tx).2.trace = .xchg tx (l.frame c tx).1 :: l.trace := rfl

/-- The value and the event of a read frame (R61, R109). -/
theorem readData_trace (c : Cfg) (l : Link) : ∃ a b h lo, (l.readData c).1 = h ++ lo ∧
    (l.readData c).2.trace = .xchg (frameRD c) [a, b, h, lo] :: l.trace := by
  obtain ⟨a, b, h, lo, env, -, hread⟩ := readData_spec c l
  exact ⟨a, b, h, lo, by rw [hread], by rw [hread]⟩

/-- The newest event is the last of the event list (R61). -/
theorem events_of_trace {s t : State} {e : Event} (h : t.link.trace = e :: s.link.trace) :
    t.events = s.events ++ [e] := by
  rw [State.events, h, List.reverse_cons, State.events]

/-! ### Pixels and index after a data write -/

/-- A pixel write inside the geometry changes the pixel at the cursor alone (R72). -/
theorem pixelWrite_pixel {p : Panel} {g : Geom} (hd : p.dead = false) (hg : p.geom = some g)
    (h : p.ax.toNat < g.w ∧ p.ay.toNat < g.h) (v x y : Word) :
    (p.pixelWrite v).pixel x y = if (x, y) = (p.ax, p.ay) then some v else p.pixel x y := by
  have hq : (p.pixelWrite v).pixel x y = if x.toNat < g.w ∧ y.toNat < g.h then
      some (({ p with gram := p.gram.write (pixelKey p.ax p.ay) v } : Panel).cell x y) else none := by
    rw [pixelWrite_inside hg h]
    simp [Panel.pixel, Panel.advance, Panel.cell, hg, hd]
  rw [hq, cell_write p (p.ax, p.ay)]
  by_cases e : (x, y) = (p.ax, p.ay)
  · obtain ⟨rfl, rfl⟩ := Prod.mk.inj e
    simp [h]
  · simp [Panel.pixel, hg, hd, e]

/-- A pixel write that leaves the contract in force was inside the geometry (R72). -/
theorem inside_of_pixelWrite_alive {p : Panel} {v : Word} (h : (p.pixelWrite v).dead = false) :
    ∃ g, p.geom = some g ∧ p.ax.toNat < g.w ∧ p.ay.toNat < g.h := by
  cases hg : p.geom with
  | none => simp [Panel.pixelWrite, Panel.kill, hg] at h
  | some g =>
    by_cases hc : p.ax.toNat < g.w ∧ p.ay.toNat < g.h
    · exact ⟨g, rfl, hc⟩
    · simp [Panel.pixelWrite, Panel.kill, Panel.cursorInside, hg, hc] at h

/-- A data write that leaves the contract in force moves no pixel but the one at the cursor, by a write at 0x22; the
scan-direction register is set aside (R72). -/
theorem dataWrite_other_pixel {c : Cfg} {p : Panel} {v : Word} (hd : p.dead = false) (hs : p.ir ≠ scanReg c)
    (h : (p.dataWrite c v).dead = false) {x y : Word} (hne : ¬ (p.ir = 0x22 ∧ (x, y) = (p.ax, p.ay))) :
    (p.dataWrite c v).pixel x y = p.pixel x y := by
  obtain ⟨follows20, follows21, -, -, -, -, elsewhere⟩ := dataWrite_follows c hd v
  by_cases h20 : p.ir = 0x20
  · rw [follows20 h20]
    rfl
  by_cases h21 : p.ir = 0x21
  · rw [follows21 h21]
    rfl
  by_cases h22 : p.ir = 0x22
  · rw [dataWrite_pixel h22] at h ⊢
    obtain ⟨g, hg, hin⟩ := inside_of_pixelWrite_alive h
    rw [pixelWrite_pixel hd hg hin, if_neg fun e => hne ⟨h22, e⟩]
  · rw [elsewhere h20 h21 h22 hs] at h
    cases h

/-- No data write moves the index (R72). -/
theorem dataWrite_ir (c : Cfg) (p : Panel) (v : Word) : (p.dataWrite c v).ir = p.ir := by
  have hpixel : (p.pixelWrite v).ir = p.ir := by
    unfold Panel.pixelWrite
    split
    · split_ifs <;> rfl
    · rfl
  have hscan : (p.scanWrite c v).ir = p.ir := by
    unfold Panel.scanWrite
    split
    · split_ifs <;> rfl
    · rfl
  unfold Panel.dataWrite
  split_ifs
  · rfl
  · rfl
  · exact hpixel
  · exact hscan
  · rfl

end Sys2Proof.Machine
end

