-- ==== Sys2Proof/Proofs/Protocol.lean ====
section
/-! THEOREMS. The register protocol (40_register_protocol.md R120 to R125). -/

namespace Sys2Proof.Machine

/-- Settles O20: the index frame leaves the pixels and the cursor, and the data frame is the data write at the index. -/
theorem writeRegSendsIndexThenData : Obligations.WriteRegSendsIndexThenData := by
  refine ⟨decode_encode .writeReg, fun s => ?_⟩
  have hsent := memWrite_sent s.cfg (s.regs.xLow 0) (s.regs.x 1) s.link
  refine ⟨_, exec_of_setLink (l := s.link.memWrite s.cfg (s.regs.xLow 0) (s.regs.x 1)) rfl, rfl, hsent.bus,
    hsent.emits, ?_⟩
  rintro ⟨hb, hd⟩
  have hindexed : (s.link.panel.indexWrite (s.regs.xLow 0)).dead = false := hd
  rw [memWrite_panel hb hd]
  refine ⟨dataWrite_ir _ _ _, dataWrite_follows s.cfg hindexed _, fun v ha hv => ?_, fun ha halive x y hne => ?_⟩
  · obtain ⟨-, g, hg, hx, hy, -⟩ := pixel_eq_some_iff.1 hv
    rw [dataWrite_pixel ha]
    exact (pixelWrite_pixel hindexed hg ⟨hx, hy⟩ _ _ _).trans (if_pos rfl)
  · exact dataWrite_other_pixel hindexed ha halive hne

/-- Settles O15, by the event of the index frame and what the panel receives. -/
theorem writeIndexSendsOneFrame : Obligations.WriteIndexSendsOneFrame := by
  refine ⟨decode_encode .writeIndex, fun s => ?_⟩
  have htrace := frame_trace s.cfg (frameWI s.cfg (s.regs.xLow 0)) s.link
  refine ⟨_, _, exec_of_setLink rfl, rfl, rfl, events_of_trace htrace, ?_⟩
  rintro ⟨hb, hd⟩
  exact (writeIndex_panel hb _).trans (receive_alive hd _)

/-- Settles O16, by the event of the data frame. -/
theorem writeDataSendsOneFrame : Obligations.WriteDataSendsOneFrame := by
  refine ⟨decode_encode .writeData, fun s => ?_⟩
  have htrace := frame_trace s.cfg (frameWD s.cfg (s.regs.x 0)) s.link
  exact ⟨_, _, exec_of_setLink rfl, rfl, rfl, events_of_trace htrace⟩

/-- Settles O18, by the value and the event of the read frame. -/
theorem readDataStoresTheLastTwoBytes : Obligations.ReadDataStoresTheLastTwoBytes := by
  refine ⟨decode_encode .readData, fun s => ?_⟩
  obtain ⟨a, b, h, l, hvalue, htrace⟩ := readData_trace s.cfg s.link
  refine ⟨_, a, b, h, l, exec_of_storeRes0 (r := s.link.readData s.cfg) rfl, ?_, rfl, events_of_trace htrace⟩
  rw [hvalue]

/-- Settles O21: the read frame of READ_DATA, after an index frame. -/
theorem readRegSendsIndexThenRead : Obligations.ReadRegSendsIndexThenRead := by
  refine ⟨decode_encode .readReg, fun s => ?_⟩
  obtain ⟨rx, hindex⟩ : ∃ rx, (s.link.writeIndex s.cfg (s.regs.xLow 0)).trace =
      .xchg (frameWI s.cfg (s.regs.xLow 0)) rx :: s.link.trace := ⟨_, frame_trace s.cfg _ s.link⟩
  obtain ⟨a, b, h, l, hvalue, hread⟩ := readData_trace s.cfg (s.link.writeIndex s.cfg (s.regs.xLow 0))
  refine ⟨_, rx, a, b, h, l, exec_of_storeRes0 (r := s.link.memRead s.cfg (s.regs.xLow 0)) rfl, ?_, rfl, ?_⟩
  · rw [Link.memRead, hvalue]
  · rw [hindex] at hread
    rw [State.events, Link.memRead, hread, List.reverse_cons, List.reverse_cons, List.append_assoc]
    rfl

/-- Settles O13: the body of NOP is empty, so the common start and end are all of it. -/
theorem nopOnlyClearsTheReport : Obligations.NopOnlyClearsTheReport :=
  ⟨decode_encode .nop, fun _ => exec_of_setLink rfl⟩

end Sys2Proof.Machine
end

