-- ==== Sys2Proof/Proofs/Surface.lean ====
section
/-! SUPPORT. The display surface, one rule per part: the conversion and the operands (41_display_surface.md R144, R148),
what a gated command answers (R141), the calls of `Plot` (R142), the frames of GET_POINT (R143), the stream of CLEAR
(R147). -/

namespace Sys2Proof.Machine

/-! ### Operands and colours -/

/-- The conversion as shifts and masks: its fields bit by bit (R144). -/
theorem swapRB_eq_masks (v : Word) :
    swapRB v = ((v &&& 0x001F#16) <<< 11) ||| (v &&& 0x07E0#16) ||| ((v >>> 11) &&& 0x001F#16) := by
  have low : ∀ k < 16, (0x001F#16).getLsbD k = decide (k < 5) := by decide
  have mid : ∀ k < 16, (0x07E0#16).getLsbD k = decide (5 ≤ k ∧ k < 11) := by decide
  refine BitVec.eq_of_getLsbD_eq fun k hk => ?_
  rw [getLsbD_swapRB v hk]
  simp only [BitVec.getLsbD_or, BitVec.getLsbD_and, BitVec.getLsbD_shiftLeft, BitVec.getLsbD_ushiftRight]
  rw [mid k hk, low k hk, low (k - 11) (by omega)]
  obtain h | ⟨h, h'⟩ | h : k < 5 ∨ (5 ≤ k ∧ k < 11) ∨ 11 ≤ k := by omega
  · simp [h, show k < 11 by omega, show ¬ 5 ≤ k by omega, Nat.add_comm]
  · simp [h, h', show ¬ k < 5 by omega]
  · simp [hk, show ¬ k < 11 by omega, show ¬ k < 5 by omega, show k - 11 < 5 by omega]

/-- The number of an orientation is the operand that selects it (R27, R148). -/
theorem orientOperand_orientCode (o : Orient) : orientOperand (orientCode o) = some o := by
  cases o <;> rfl

/-- An operand above 1 is no orientation (R148). -/
theorem orientOperand_above {v : Word} (h : 1 < v.toNat) : orientOperand v = none := by
  have h0 : v ≠ 0 := by rintro rfl; exact absurd h (by decide)
  have h1 : v ≠ 1 := by rintro rfl; exact absurd h (by decide)
  rw [orientOperand, if_neg h0, if_neg h1]

/-! ### What a command answers -/

/-- A body that reaches its end leaves no error behind (R240). -/
theorem exec_err_of_ok {i : Instr} {s u : State} (h : bodyOf i (beginCommand s) = .ok u) :
    ∃ t, exec i s = .next t ∧ t.regs.err = false := by
  have hkept := body_kept i (beginCommand s)
  rw [h] at hkept
  exact ⟨endCommand u, by rw [exec_eq, command_ok h], hkept.err⟩

/-- A gated command ends with NOT_INIT and nothing else while the orientation is not set (R141). -/
theorem exec_gated_closed {i : Instr} {f : State → State} {s : State} (hi : bodyOf i = gated f)
    (h : s.regs.orientValid = false) : exec i s = .next { s with regs := failedRegs .notInit s.regs } := by
  rw [exec_eq, hi, command_gated_closed h]
  rfl

/-- With the orientation set, a command drawn by `Plot` clears the report and performs its calls in order (R141, R168). -/
theorem exec_plotter_link {i : Instr} (hi : i ∈ plotters) {s : State} (hv : s.regs.orientValid = true) :
    exec i s = .next { s with regs := clearedRegs s.regs, link := s.link.plotAll s.cfg s.area (dotsOf i s) } :=
  exec_plotter hi hv

/-- With the orientation set, CLEAR clears the report and streams its colour (R141, R147). -/
theorem exec_clear_link {s : State} (hv : s.regs.orientValid = true) : exec .clear s =
    .next { s with regs := clearedRegs s.regs, link := s.link.clear s.cfg s.area (s.regs.x 0) } :=
  exec_of_setLink (if_pos hv)

/-! ### The calls of `Plot` -/

/-- The one call of `Plot` of SET_POINT (R145). -/
theorem dotsOf_setPoint (s : State) :
    dotsOf .setPoint s = [{ x := s.regs.arg[0].toNat, y := s.regs.arg[1].toNat, c := s.regs.arg[2] }] := rfl

/-- One call of `Plot` (R168). -/
theorem plotAll_singleton (c : Cfg) (g : Geom) (d : Dot) (l : Link) : l.plotAll c g [d] = l.plot c g d := rfl

/-- The bounds check of a call whose coordinates are words (R142, R145). -/
theorem inside_word_iff {g : Geom} {x y v : Word} :
    Dot.inside g { x := x.toNat, y := y.toNat, c := v } = true ↔ x.toNat < g.w ∧ y.toNat < g.h := by
  simp [inside_iff]

/-- The six frames of a call inside the area whose coordinates are words (R142, R145). -/
theorem plotFrames_word {c : Cfg} {g : Geom} {x y : Word} (h : x.toNat < g.w ∧ y.toNat < g.h) (v : Word) :
    plotFrames c g { x := x.toNat, y := y.toNat, c := v } =
      cursorFrames c x y ++ [frameWI c 0x22, frameWD c v] := by
  rw [plotFrames, if_pos ((inside_iff g _).1 (inside_word_iff.2 h)), u16_natCast_toNat, u16_natCast_toNat]

/-- The frames of the plot at the origin, which is inside every area (R142, R147). -/
theorem plotFrames_origin {c : Cfg} {g : Geom} (hw : 1 ≤ g.w) (hh : 1 ≤ g.h) (v : Word) :
    plotFrames c g { x := 0, y := 0, c := v } = cursorFrames c 0 0 ++ [frameWI c 0x22, frameWD c v] :=
  plotFrames_word (x := 0) (y := 0) ⟨hw, hh⟩ v

/-- A call outside the area does nothing (R142). -/
theorem plot_outside {c : Cfg} {g : Geom} {d : Dot} {l : Link} (h : ¬ d.inside g = true) : l.plot c g d = l :=
  if_neg h

/-! ### GET_POINT -/

/-- The value and the events of `ReadPixel`: the cursor and the index, the discarded read, the converted one (R143). -/
theorem readPixel_events (c : Cfg) (x y : Word) (l : Link) : ∃ evs rx a b h lo,
    (l.readPixel c x y).1 = swapRB (h ++ lo) ∧
    (l.readPixel c x y).2.trace.reverse =
      l.trace.reverse ++ evs ++ [.xchg (frameRD c) rx, .xchg (frameRD c) [a, b, h, lo]] ∧
    evs.map Event.sent = (cursorFrames c x y ++ [frameWI c 0x22]).map some := by
  have hset := (setCursor_sent c x y l).trans (writeIndex_sent c 0x22 _)
  obtain ⟨-, evs, hevs, hsent, -⟩ := hset
  obtain ⟨a₁, b₁, h₁, l₁, -, hdiscarded⟩ := readData_trace c ((l.setCursor c x y).writeIndex c 0x22)
  obtain ⟨a, b, h, lo, hvalue, hreal⟩ := readData_trace c (((l.setCursor c x y).writeIndex c 0x22).readData c).2
  refine ⟨evs, [a₁, b₁, h₁, l₁], a, b, h, lo, congrArg swapRB hvalue, ?_, hsent⟩
  rw [Link.readPixel, hreal, hdiscarded, List.reverse_cons, List.reverse_cons, hevs, List.append_assoc]
  rfl

/-! ### CLEAR -/

/-- CLEAR on a panel in force fills the whole geometry (R147). -/
theorem clear_streamed {c : Cfg} {g : Geom} {l : Link} (h : Ready g l) (hw : 1 ≤ g.w ∧ g.w ≤ 32767)
    (hh : 1 ≤ g.h ∧ g.h ≤ 32767) (v : Word) : Streamed g v (g.w * g.h) (l.clear c g v) := by
  have harea : 1 ≤ g.w * g.h := Nat.mul_pos hw.1 hh.1
  have hfirst := plot_origin_streamed (c := c) h hw.1 hh.1 hw.2 hh.2 v
  have hall := stream_streamed (c := c) hw.2 hh.2 (g.w * g.h - 1) hfirst (by omega)
  rwa [Nat.add_sub_cancel' harea] at hall

/-- After the last pixel of the stream the cursor is back at the first (R74, R147). -/
theorem Streamed.cursor {g : Geom} {v : Word} {l : Link} (h : Streamed g v (g.w * g.h) l) :
    l.panel.ax = 0 ∧ l.panel.ay = 0 := by
  obtain ⟨hlt, -⟩ | ⟨-, horigin⟩ := h.place
  · exact absurd hlt (lt_irrefl _)
  · exact horigin

/-- After the last pixel of the stream every pixel holds the colour (R147). -/
theorem Streamed.pixel {g : Geom} {v : Word} {l : Link} (h : Streamed g v (g.w * g.h) l) {x y : Word}
    (hx : x.toNat < g.w) (hy : y.toNat < g.h) : l.panel.pixel x y = some v := by
  refine h.filled x y hx hy ?_
  calc y.toNat * g.w + x.toNat < (y.toNat + 1) * g.w := by rw [Nat.succ_mul]; omega
    _ ≤ g.h * g.w := Nat.mul_le_mul_right _ hy
    _ = g.w * g.h := Nat.mul_comm _ _

end Sys2Proof.Machine
end

