-- ==== Sys2Proof/Proofs/Display.lean ====
section
/-! THEOREMS. The display surface (41_display_surface.md R140 to R149) and the drawing commands on a panel in force
(42_rasterizer.md R168). -/

namespace Sys2Proof.Machine

/-- Settles O22, by the bits of the conversion. -/
theorem swapRBIsItsOwnInverse : Obligations.SwapRBIsItsOwnInverse :=
  fun v => ⟨swapRB_eq_masks v, swapRB_swapRB v⟩

/-- Settles O23, by the frames of `SetCursor` and what they do to a panel in force. -/
theorem setCursorSendsXThenY : Obligations.SetCursorSendsXThenY := by
  refine ⟨decode_encode .setCursor, fun s => ?_⟩
  have hsent := setCursor_sent s.cfg (s.regs.x 0) (s.regs.x 1) s.link
  exact ⟨_, exec_of_setLink (l := s.link.setCursor s.cfg (s.regs.x 0) (s.regs.x 1)) rfl, rfl, hsent.bus, hsent.emits,
    fun ⟨hb, hd⟩ => setCursor_panel hb hd _ _⟩

/-- Settles O24: CLEAR and the commands drawn by `Plot` are gated bodies, and the others' bodies reach their end. -/
theorem orientationGate : Obligations.OrientationGate := by
  constructor
  · intro i hi s hv
    have cover : ∀ i ∈ [Instr.setPoint, .clear, .line, .box, .boxFill, .circle, .circleFill, .putChar],
        i = .clear ∨ i ∈ plotters := by decide
    obtain rfl | hp := cover i hi
    · exact exec_gated_closed (f := fun t => t.setLink (t.link.clear t.cfg t.area (t.regs.x 0))) rfl hv
    · exact exec_gated_closed (bodyOf_plotter hp) hv
  · intro i hi s
    simp only [List.mem_cons, List.not_mem_nil, or_false] at hi
    rcases hi with rfl | rfl | rfl | rfl | rfl | rfl | rfl | rfl <;> exact exec_err_of_ok rfl

/-- Settles O31: the calls of `Plot` in order, each with its frames. -/
theorem drawingSendsTheFramesOfItsPlots : Obligations.DrawingSendsTheFramesOfItsPlots := by
  intro i hi s hv
  have hsent := plotAll_sent s.cfg s.area (dotsOf i s) s.link
  exact ⟨_, exec_plotter_link hi hv, rfl, hsent.bus, hsent.emits⟩

/-- Settles O32, by the pixels and the cursor after a list of calls of `Plot`. -/
theorem drawingChangesOnlyItsPixels : Obligations.DrawingChangesOnlyItsPixels := by
  intro i hi s hv hr
  obtain ⟨-, hw, -, hh⟩ := area_bounds s
  obtain ⟨t, ht, htr, hpx⟩ := plotter_ready hi hv hr
  have hlast := plotAll_past (c := s.cfg) hw hh (dotsOf i s) hr.ready
  have hlink : t.link = s.link.plotAll s.cfg s.area (dotsOf i s) := by
    rw [exec_plotter_link hi hv] at ht
    cases ht
    rfl
  rw [← hlink] at hlast
  refine ⟨t, ht, htr, fun x y hx hy => ?_, hlast⟩
  rw [hpx x y hx hy]
  cases lastColour (dotsOf i s) x y <;> rfl

/-- Settles O25: the one call of `Plot`, inside the area and outside it. -/
theorem setPointPlotsOrDrops : Obligations.SetPointPlotsOrDrops := by
  intro s hv x y
  have hexec := exec_plotter_link (i := .setPoint) (by decide) hv
  rw [dotsOf_setPoint, plotAll_singleton] at hexec
  refine ⟨dotsOf_setPoint s, fun hin => ?_, fun hout => ?_⟩
  · have hsent := plot_sent s.cfg s.area { x := x.toNat, y := y.toNat, c := s.regs.arg[2] } s.link
    rw [plotFrames_word hin] at hsent
    obtain ⟨-, hw, -, hh⟩ := area_bounds s
    exact ⟨_, hexec, rfl, hsent.bus, hsent.emits, fun hr => plot_past hr.ready hw hh (inside_word_iff.2 hin)⟩
  · rw [hexec, plot_outside (mt inside_word_iff.1 hout)]

/-- Settles O26, by the value and the events of `ReadPixel` and what its frames do to a panel in force. -/
theorem getPointSendsSevenFrames : Obligations.GetPointSendsSevenFrames := by
  refine ⟨decode_encode .getPoint, fun s => ?_⟩
  have hbus := (readPixel_sent s.cfg (s.regs.x 0) (s.regs.x 1) s.link).bus
  obtain ⟨evs, rx, a, b, h, l, hvalue, hevents, hsent⟩ :=
    readPixel_events s.cfg (s.regs.x 0) (s.regs.x 1) s.link
  refine ⟨_, evs, rx, a, b, h, l,
    exec_of_storeRes0 (r := s.link.readPixel s.cfg (s.regs.x 0) (s.regs.x 1)) rfl, ?_, hbus, hevents, hsent,
    fun ⟨hb, hd⟩ => readPixel_panel (c := s.cfg) hb hd (s.regs.x 0) (s.regs.x 1)⟩
  rw [hvalue]

/-- Settles O27: the frames of the plot at the origin, which is inside every area, and of the stream. -/
theorem clearSendsItsStream : Obligations.ClearSendsItsStream := by
  intro s hv
  obtain ⟨hw, -, hh, -⟩ := area_bounds s
  have hsent := clear_sent s.cfg s.area (s.regs.x 0) s.link
  rw [plotFrames_origin hw hh] at hsent
  exact ⟨_, exec_clear_link hv, rfl, hsent.bus, hsent.emits⟩

/-- Settles O28, by the stream over the whole geometry. -/
theorem clearFillsThePanel : Obligations.ClearFillsThePanel := by
  intro s hv hr
  obtain ⟨hw, hw', hh, hh'⟩ := area_bounds s
  have hfull := clear_streamed (c := s.cfg) hr.ready ⟨hw, hw'⟩ ⟨hh, hh'⟩ (s.regs.x 0)
  exact ⟨_, exec_clear_link hv, ⟨⟨hfull.ready.bus, hfull.ready.alive⟩, hfull.ready.geom⟩,
    fun _ _ hx hy => hfull.pixel hx hy, hfull.cursor⟩

/-- Settles O29: the operand is the number of an orientation, whose scan value is written, or above 1. -/
theorem setOrientStoresAndWritesTheScanRegister : Obligations.SetOrientStoresAndWritesTheScanRegister := by
  refine ⟨decode_encode .setOrient, fun s => ⟨fun o ho => ?_, fun habove => ?_⟩⟩
  · have ho' : orientOperand s.regs.arg[0] = some o := (congrArg orientOperand ho).trans (orientOperand_orientCode o)
    have hsent := memWrite_sent s.cfg (scanReg s.cfg) (scanValue s.cfg o) s.link
    exact ⟨_, (exec_eq .setOrient s).trans (congrArg Host.Outcome.next (command_ok (setOrientBody_valid ho'))), rfl,
      hsent.bus, hsent.emits⟩
  · exact (exec_eq .setOrient s).trans
      (congrArg Host.Outcome.next (command_raised (setOrientBody_invalid (orientOperand_above habove))))

end Sys2Proof.Machine
end

