-- ==== Sys2Proof/Proofs/Shapes.lean ====
section
/-! SUPPORT. Lines by their driving axis, the rows of a fill, the points of a circle and of its disk (42_rasterizer.md
R161 to R167). -/

namespace Sys2Proof.Machine

/-! ### Lines -/

/-- The error a line starts with is worth no minor step (R161). -/
theorem half_div_self (big : Nat) : big / 2 / big = 0 := by
  rw [Nat.div_eq_zero_iff]
  omega

/-- The k-th point of a line in driving and minor coordinates, the starting point included (R161). -/
theorem lineRun_get {big small : Nat} (hs : small ≤ big) (sb ss b m : Int) {k : Nat} (hk : k ≤ big) :
    ((b, m) :: lineSteps big small sb ss big (big / 2) b m)[k]? =
      some (b + sb * k, m + ss * (((big / 2 + k * small) / big : Nat) : Int)) := by
  cases k with
  | zero =>
    simp [half_div_self]
  | succ k => exact lineSteps_get hs (Nat.div_lt_self (by omega) (by decide)) k hk

/-- The minor axis has moved its whole delta when the driving axis has (R161). -/
theorem lineRun_minor_full {big small : Nat} (hs : small ≤ big) : (big / 2 + big * small) / big = small := by
  obtain rfl | hbig := big.eq_zero_or_pos
  · simpa using (Nat.le_zero.1 hs).symm
  · rw [Nat.add_mul_div_left _ _ hbig, half_div_self, zero_add]

section
variable {x0 y0 x1 y1 : Int}

/-- A line whose x delta is not the smaller is driven by x (R161). -/
theorem linePoints_of_xDriven (h : (y1 - y0).natAbs ≤ (x1 - x0).natAbs) : linePoints x0 y0 x1 y1 =
    (x0, y0) :: lineSteps (x1 - x0).natAbs (y1 - y0).natAbs (x1 - x0).sign (y1 - y0).sign (x1 - x0).natAbs
      ((x1 - x0).natAbs / 2) x0 y0 :=
  congrArg _ (if_pos h)

/-- A line whose x delta is the smaller is driven by y: its points are a run with the axes exchanged (R161). -/
theorem linePoints_of_yDriven (h : (x1 - x0).natAbs < (y1 - y0).natAbs) : linePoints x0 y0 x1 y1 =
    ((y0, x0) :: lineSteps (y1 - y0).natAbs (x1 - x0).natAbs (y1 - y0).sign (x1 - x0).sign (y1 - y0).natAbs
      ((y1 - y0).natAbs / 2) y0 x0).map Prod.swap :=
  congrArg _ (if_neg (Nat.not_le.2 h))

/-- A line has one point more than its driving delta (R161). -/
theorem linePoints_length (x0 y0 x1 y1 : Int) :
    (linePoints x0 y0 x1 y1).length = max (x1 - x0).natAbs (y1 - y0).natAbs + 1 := by
  obtain h | h := le_or_gt (y1 - y0).natAbs (x1 - x0).natAbs
  · rw [linePoints_of_xDriven h, List.length_cons, lineSteps_length, max_eq_left h]
  · rw [linePoints_of_yDriven h, List.length_map, List.length_cons, lineSteps_length, max_eq_right h.le]

/-- The k-th point of a line driven by x (R161). -/
theorem linePoints_get_xDriven (h : (y1 - y0).natAbs ≤ (x1 - x0).natAbs) {k : Nat} (hk : k ≤ (x1 - x0).natAbs) :
    (linePoints x0 y0 x1 y1)[k]? = some (x0 + (x1 - x0).sign * k, y0 + (y1 - y0).sign *
      ((((x1 - x0).natAbs / 2 + k * (y1 - y0).natAbs) / (x1 - x0).natAbs : Nat) : Int)) := by
  rw [linePoints_of_xDriven h, lineRun_get h _ _ _ _ hk]

/-- The k-th point of a line driven by y (R161). -/
theorem linePoints_get_yDriven (h : (x1 - x0).natAbs < (y1 - y0).natAbs) {k : Nat} (hk : k ≤ (y1 - y0).natAbs) :
    (linePoints x0 y0 x1 y1)[k]? = some (x0 + (x1 - x0).sign *
      ((((y1 - y0).natAbs / 2 + k * (x1 - x0).natAbs) / (y1 - y0).natAbs : Nat) : Int), y0 + (y1 - y0).sign * k) := by
  rw [linePoints_of_yDriven h, List.getElem?_map, lineRun_get h.le _ _ _ _ hk]
  rfl

/-- A line ends at its end point (R161). -/
theorem linePoints_getLast? (x0 y0 x1 y1 : Int) : (linePoints x0 y0 x1 y1).getLast? = some (x1, y1) := by
  rw [List.getLast?_eq_getElem?, linePoints_length, Nat.add_sub_cancel]
  obtain h | h := le_or_gt (y1 - y0).natAbs (x1 - x0).natAbs
  · rw [max_eq_left h, linePoints_get_xDriven h le_rfl, lineRun_minor_full h, Int.sign_mul_natAbs,
      Int.sign_mul_natAbs, add_sub_cancel, add_sub_cancel]
  · rw [max_eq_right h.le, linePoints_get_yDriven h le_rfl, lineRun_minor_full h.le, Int.sign_mul_natAbs,
      Int.sign_mul_natAbs, add_sub_cancel, add_sub_cancel]

end

/-! ### The rows of BOX_FILL -/

/-- The points of the rows strictly between two corners, `(xa, ya)` the lower one (R164). -/
def interiorRows (xa ya xb yb : Int) : List Point :=
  (ascending (ya + 1) (yb - ya - 1).toNat).flatMap fun y => linePoints (xa + 1) y (xb - 1) y

/-- The rows cover the strict interior (R164). -/
theorem mem_interiorRows {xa ya xb yb : Int} (h : xa + 2 ≤ xb) (p : Point) :
    p ∈ interiorRows xa ya xb yb ↔ xa < p.1 ∧ p.1 < xb ∧ ya < p.2 ∧ p.2 < yb := by
  simp only [interiorRows, List.mem_flatMap, mem_ascending, mem_row (show xa + 1 ≤ xb - 1 by omega)]
  constructor
  · rintro ⟨y, hy, rfl, hx⟩; omega
  · intro hp; exact ⟨p.2, by omega, rfl, by omega⟩

/-- The rows are taken upward, each from left to right (R164). -/
theorem interiorRows_scanned {xa xb : Int} (h : xa + 2 ≤ xb) (ya yb : Int) :
    (interiorRows xa ya xb yb).Pairwise Scanned :=
  have hrow : xa + 1 ≤ xb - 1 := by omega
  rows_scanned (ascending_sorted _ _) (fun _ _ p hp => ((mem_row hrow p).1 hp).1) fun _ _ => row_scanned hrow

/-- The fill of BOX_FILL is a scan of the strict interior in one colour, empty when there is no interior (R164). -/
theorem boxInterior_spec (x0 y0 x1 y1 : Int) (f : Word) : ∃ ps, boxInterior x0 y0 x1 y1 f = paint f ps ∧
    ps.Pairwise Scanned ∧ ∀ p : Point, p ∈ ps ↔
      min x0 x1 < p.1 ∧ p.1 < max x0 x1 ∧ min y0 y1 < p.2 ∧ p.2 < max y0 y1 := by
  by_cases h : max x0 x1 - min x0 x1 ≥ 2 ∧ max y0 y1 - min y0 y1 ≥ 2
  · have hx : min x0 x1 + 2 ≤ max x0 x1 := by omega
    refine ⟨_, (if_pos h).trans ?_, interiorRows_scanned hx _ _, mem_interiorRows hx⟩
    rw [interiorRows, paint, List.map_flatMap]
    rfl
  · refine ⟨[], if_neg h, List.Pairwise.nil, fun p => ?_⟩
    simp only [List.not_mem_nil, false_iff]
    omega

/-! ### Circles -/

/-- A point of the outline is a mirrored octant point (R165). -/
theorem mem_circlePoints {cx cy dx dy : Int} {r : Nat} : (cx + dx, cy + dy) ∈ circlePoints cx cy r ↔
    ∃ p ∈ octant r, ((dx = p.1 ∨ dx = -p.1) ∧ (dy = p.2 ∨ dy = -p.2)) ∨
      ((dx = p.2 ∨ dx = -p.2) ∧ (dy = p.1 ∨ dy = -p.1)) := by
  simp only [circlePoints, List.mem_flatMap, mem_mirrored]

/-- The outline is symmetric in the vertical axis through the centre (R165). -/
theorem circlePoints_reflect_x {cx cy dx dy : Int} {r : Nat} (h : (cx + dx, cy + dy) ∈ circlePoints cx cy r) :
    (cx - dx, cy + dy) ∈ circlePoints cx cy r := by
  obtain ⟨p, hp, hd⟩ := mem_circlePoints.1 h
  rw [sub_eq_add_neg]
  exact mem_circlePoints.2 ⟨p, hp, by omega⟩

/-- The outline is symmetric in the horizontal axis through the centre (R165). -/
theorem circlePoints_reflect_y {cx cy dx dy : Int} {r : Nat} (h : (cx + dx, cy + dy) ∈ circlePoints cx cy r) :
    (cx + dx, cy - dy) ∈ circlePoints cx cy r := by
  obtain ⟨p, hp, hd⟩ := mem_circlePoints.1 h
  rw [sub_eq_add_neg cy]
  exact mem_circlePoints.2 ⟨p, hp, by omega⟩

/-- The outline is symmetric in the diagonal through the centre (R165). -/
theorem circlePoints_transpose {cx cy dx dy : Int} {r : Nat} (h : (cx + dx, cy + dy) ∈ circlePoints cx cy r) :
    (cx + dy, cy + dx) ∈ circlePoints cx cy r := by
  obtain ⟨p, hp, hd⟩ := mem_circlePoints.1 h
  exact mem_circlePoints.2 ⟨p, hp, by tauto⟩

/-- The scan of CIRCLE_FILL covers the disk in the half-open square (R167). -/
theorem mem_diskPoints {cx cy dx dy : Int} {r : Nat} : (cx + dx, cy + dy) ∈ diskPoints cx cy r ↔
    -(r : Int) ≤ dx ∧ dx < r ∧ -(r : Int) ≤ dy ∧ dy < r ∧ dx * dx + dy * dy ≤ (r : Int) * r := by
  simp only [diskPoints, List.mem_flatMap, List.mem_map, List.mem_filter, mem_ascending, decide_eq_true_eq,
    Prod.mk.injEq, add_right_inj]
  constructor
  · rintro ⟨_, hy, _, ⟨hx, hr⟩, rfl, rfl⟩
    exact ⟨hx.1, by omega, hy.1, by omega, hr⟩
  · rintro ⟨hx, hx', hy, hy', hr⟩
    exact ⟨dy, by omega, dx, ⟨by omega, hr⟩, rfl, rfl⟩

end Sys2Proof.Machine
end

