-- ==== Sys2Proof/Proofs/Rasterizer.lean ====
section
/-! THEOREMS. The rasterizer (42_rasterizer.md R161 to R168). -/

namespace Sys2Proof.Machine

/-- Settles O33, by the driving axis. -/
theorem lineHasTheMidpointForm : Obligations.LineHasTheMidpointForm := by
  refine fun x0 y0 x1 y1 => ⟨fun h => ⟨?_, fun k => linePoints_get_xDriven h⟩,
    fun h => ⟨?_, fun k => linePoints_get_yDriven h⟩⟩
  · rw [linePoints_length, max_eq_left h]
  · rw [linePoints_length, max_eq_right h.le]

/-- Settles O34: the last point is the closed form at the driving delta. -/
theorem lineRunsFromEndToEnd : Obligations.LineRunsFromEndToEnd :=
  ⟨fun x0 y0 x1 y1 => ⟨linePoints_length x0 y0 x1 y1, rfl, linePoints_getLast? x0 y0 x1 y1⟩, fun _ => rfl⟩

/-- Settles O35: painting four edges is painting their points in turn. -/
theorem boxPlotsItsFourEdges : Obligations.BoxPlotsItsFourEdges := by
  intro s
  simp only [List.map_append]
  rfl

/-- Settles O36, by the rows of the interior. -/
theorem boxFillCoversTheInterior : Obligations.BoxFillCoversTheInterior := by
  intro s
  obtain ⟨ps, hfill, hscan, hmem⟩ :=
    boxInterior_spec (s.regs.xInt 0) (s.regs.xInt 1) (s.regs.xInt 2) (s.regs.xInt 3) (s.regs.x 5)
  refine ⟨paint (s.regs.x 5) ps, congrArg (dotsOf .box s ++ ·) hfill, fun d hd => ?_, List.pairwise_map.2 hscan, fun x y => ?_⟩
  · obtain ⟨p, -, rfl⟩ := List.mem_map.1 hd
    rfl
  · rw [← hmem (x, y)]
    simp [paint]

/-- Settles O37: the octant point behind a plotted point is behind its reflections too. -/
theorem circleIsSymmetric : Obligations.CircleIsSymmetric :=
  ⟨fun _ => circleDots_eq _ _ _ _,
    fun _ _ _ _ _ h => ⟨circlePoints_reflect_x h, circlePoints_reflect_y h, circlePoints_transpose h⟩⟩

/-- Settles O38: `y − x` starts below the bound on iterations and each step lowers both. -/
theorem octantWalkEndsByItsCondition : Obligations.OctantWalkEndsByItsCondition := by
  refine ⟨fun _ _ _ _ => rfl, fun r extra => ?_⟩
  obtain ⟨hbound, hpoints⟩ := octantWalk_spec (r + 1) 0 r (1 - r) le_rfl (by omega)
  exact ⟨hbound extra, hpoints⟩

/-- Settles O39, by the points of the disk and the order of their scan. -/
theorem circleFillScansTheHalfOpenSquare : Obligations.CircleFillScansTheHalfOpenSquare := by
  intro s
  refine ⟨diskPoints (s.regs.xInt 0) (s.regs.xInt 1) (s.regs.x 2).toNat, fun _ _ => mem_diskPoints,
    disk_scanned _ _ _, ?_⟩
  exact congrArg (paint (s.regs.x 4) _ ++ ·) (ite_not _ _ _)

end Sys2Proof.Machine
end

