-- ==== Sys2Proof/Proofs/TextBlitFacts.lean ====
section
/-! THEOREMS. Where the calls of a character stand in their list (43_text_blit.md R190, R191). -/

namespace Sys2Proof.Machine

/-- In a concatenation of rows of one length, the row and the column of an element give its place. -/
theorem getElem?_flatMap_of_length_eq {α β : Type} {f : α → List β} {n j : Nat} (hf : ∀ a, (f a).length = n)
    (hj : j < n) (as : List α) (i : Nat) : (as.flatMap f)[n * i + j]? = as[i]?.bind fun a => (f a)[j]? := by
  induction as generalizing i with
  | nil => rfl
  | cons a as ih =>
    rw [List.flatMap_cons]
    cases i with
    | zero =>
      have hrow : n * 0 + j < (f a).length := by rw [hf]; omega
      rw [List.getElem?_append_left hrow, Nat.mul_zero, Nat.zero_add]
      rfl
    | succ i =>
      have hrest : n * (i + 1) + j = (f a).length + (n * i + j) := by rw [hf, Nat.mul_succ]; omega
      rw [hrest, List.getElem?_append_right (Nat.le_add_right _ _), Nat.add_sub_cancel_left, ih]
      rfl

theorem charDots_length (c : Cfg) (o : Orient) (x y : Int) (ch : Byte) (fg bg : Word) :
    (charDots c o x y ch fg bg).length = 128 := by
  simp [charDots]

/-- The rows of a character are eight cells long (R191). -/
theorem charDots_getElem? (c : Cfg) (o : Orient) (x y : Int) (ch : Byte) (fg bg : Word) {i j : Nat} (hi : i < 16)
    (hj : j < 8) : (charDots c o x y ch fg bg)[8 * i + j]? = some
      { x := (charCell o x y i j).1
        y := (charCell o x y i j).2
        c := if (glyphRow c ch i).getLsbD (7 - j) then fg else bg } := by
  rw [charDots, getElem?_flatMap_of_length_eq (fun _ => by rw [List.length_map, List.length_range]) hj,
    List.getElem?_range hi, Option.bind_some, List.getElem?_map, List.getElem?_range hj, Option.map_some]

end Sys2Proof.Machine
end

