-- ==== Sys2Proof/Proofs/TextBlit.lean ====
section
/-! THEOREMS. The text blit command (43_text_blit.md R191). -/

namespace Sys2Proof.Machine

/-- Settles O40: the orientation decides where the cell of a row and a column goes. -/
theorem putCharPlotsEveryCell : Obligations.PutCharPlotsEveryCell := by
  refine fun s => ⟨charDots_length .., fun i j hi hj => (charDots_getElem? _ _ _ _ _ _ _ hi hj).trans ?_⟩
  cases s.regs.orient <;> rfl

end Sys2Proof.Machine
end

