-- ==== Sys2Proof/Proofs/TouchFilterFacts.lean ====
section
/-! SUPPORT. The touch commands, one rule per part: how each body ends (44_touch_filter.md R205 to R207), the
acquisition of whatever the environment answers (R201), and that of supplied samples (R201; log entry 4). -/

namespace Sys2Proof.Machine

/-! ### How a touch command ends -/

/-- All three differences exceed the threshold (R203). -/
theorem noisy_iff {threshold : Word} {a b c : Nat} : noisy threshold a b c = true ↔
    threshold.toNat < absDiff a b ∧ threshold.toNat < absDiff b c ∧ threshold.toNat < absDiff c a := by
  simp [noisy, and_assoc]

/-- A command whose body reaches its end (R240). -/
theorem exec_of_ok {i : Instr} {s u : State} (h : bodyOf i (beginCommand s) = .ok u) :
    exec i s = .next (endCommand u) := by
  rw [exec_eq, command_ok h]

/-- A command whose body raises an error (R241). -/
theorem exec_of_raised {i : Instr} {e : ErrCode} {s u : State} (h : bodyOf i (beginCommand s) = .raised e u) :
    exec i s = .next (raiseErr e u) := by
  rw [exec_eq, command_raised h]

/-- A command changes nothing but the registers and the transport side (R21, R32). -/
theorem exec_frame {i : Instr} {s t : State} (h : exec i s = .next t) :
    t = { s with regs := t.regs, link := t.link } := by
  obtain ⟨_, _, -, -, hcfg, hhost, hreply⟩ := exec_body h
  have hkept := body_kept i (beginCommand s)
  exact state_eq (hcfg.trans hkept.cfg) (hhost.trans hkept.host) (hreply.trans hkept.reply)

/-- A command has one outcome: a register file known of some outcome is that of every outcome. -/
theorem exec_regs_unique {i : Instr} {s t : State} {r : Regs} (ht : exec i s = .next t)
    (h : ∃ u, exec i s = .next u ∧ u.regs = r) : t.regs = r := by
  obtain ⟨u, hu, rfl⟩ := h
  rw [ht] at hu
  cases hu
  rfl

/-- TOUCH_FILTER without a whole gesture in the window (R207). -/
theorem touchFilterBody_incomplete {s : State} (h : s.regs.swCount ≠ 9) :
    touchFilterBody s = .raised .incompleteTouchGesture (clearRawValid s) :=
  if_pos h

/-- TOUCH_FILTER on a whole gesture is the filter (R207). -/
theorem touchFilterBody_complete {s : State} (h : s.regs.swCount = 9) :
    touchFilterBody s = runFilter (clearRawValid s) :=
  if_neg (not_not.2 h)

/-- TOUCH_ACQUIRE below nine pairs (R206). -/
theorem touchAcquireBody_incomplete {s : State} (h : (acquire (clearRawValid s)).1 < 9) :
    touchAcquireBody s = .raised .incompleteTouchGesture (acquire (clearRawValid s)).2 :=
  if_pos h

/-- TOUCH_ACQUIRE with nine pairs is the filter on the window just stored (R206). -/
theorem touchAcquireBody_complete {s : State} (h : (acquire (clearRawValid s)).1 = 9) :
    touchAcquireBody s = runFilter (acquire (clearRawValid s)).2 :=
  if_neg (by omega)

/-- However TOUCH_ACQUIRE ends, the window is the acquired one (R205, R206). -/
theorem touchAcquireBody_regs (s : State) : ∃ x y v, (touchAcquireBody s).state.regs =
    { (acquire (clearRawValid s)).2.regs with rawX := x, rawY := y, rawValid := v } := by
  simp only [touchAcquireBody]
  split_ifs
  · exact ⟨_, _, _, rfl⟩
  · exact runFilter_regs _

/-! ### What TOUCH_ACQUIRE makes of its acquisition -/

section Verdict

variable {s : State} {xs ys : Vector Word 9} {n : Nat}

/-- The acquisition of TOUCH_ACQUIRE started in `s` takes `n` pairs and leaves of the register file the window `xs`,
`ys`, its count and RAW_VALID = 0 (R201, R206). -/
structure Acquired (s : State) (n : Nat) (xs ys : Vector Word 9) : Prop where
  count : (acquire (clearRawValid (beginCommand s))).1 = n
  regs : (acquire (clearRawValid (beginCommand s))).2.regs =
    { (beginCommand s).regs with rawValid := false, swx := xs, swy := ys, swCount := BitVec.ofNat 4 n }

/-- Below nine pairs TOUCH_ACQUIRE ends with INCOMPLETE_TOUCH_GESTURE (R206). -/
theorem Acquired.exec_incomplete (h : Acquired s n xs ys) (hn : n < 9) :
    ∃ t, exec .touchAcquire s = .next t ∧ t.regs = { failedRegs .incompleteTouchGesture s.regs with
      rawValid := false, swx := xs, swy := ys, swCount := BitVec.ofNat 4 n } := by
  obtain ⟨hcount, hregs⟩ := h
  refine ⟨_, exec_of_raised (touchAcquireBody_incomplete (hcount ▸ hn)), ?_⟩
  rw [raiseErr_regs, hregs]
  rfl

/-- Nine pairs with a rejected axis end with NOISY_TOUCH_SAMPLE (R205, R206). -/
theorem Acquired.exec_noisy (h : Acquired s 9 xs ys)
    (hnoisy : filterAxis s.cfg.threshold xs = none ∨ filterAxis s.cfg.threshold ys = none) :
    ∃ t, exec .touchAcquire s = .next t ∧ t.regs = { failedRegs .noisyTouchSample s.regs with
      rawValid := false, swx := xs, swy := ys, swCount := 9 } := by
  obtain ⟨hcount, hregs⟩ := h
  have hcfg := (acquire_kept (clearRawValid (beginCommand s))).cfg
  have hfilter := runFilter_noisy (s := (acquire (clearRawValid (beginCommand s))).2)
    (by rw [hcfg, hregs]; exact hnoisy)
  refine ⟨_, exec_of_raised ((touchAcquireBody_complete hcount).trans hfilter), ?_⟩
  rw [raiseErr_regs, hregs]
  rfl

/-- Nine pairs with both axes accepted store the filtered point (R205, R206). -/
theorem Acquired.exec_filtered (h : Acquired s 9 xs ys) {rx ry : Word}
    (hx : filterAxis s.cfg.threshold xs = some rx) (hy : filterAxis s.cfg.threshold ys = some ry) :
    ∃ t, exec .touchAcquire s = .next t ∧ t.regs = { clearedRegs s.regs with
      swx := xs, swy := ys, swCount := 9, rawX := rx, rawY := ry, rawValid := true } := by
  obtain ⟨hcount, hregs⟩ := h
  have hcfg := (acquire_kept (clearRawValid (beginCommand s))).cfg
  have hfilter := runFilter_ok (s := (acquire (clearRawValid (beginCommand s))).2) (rx := rx) (ry := ry)
    (by rw [hcfg, hregs]; exact hx) (by rw [hcfg, hregs]; exact hy)
  refine ⟨_, exec_of_ok ((touchAcquireBody_complete hcount).trans hfilter), ?_⟩
  rw [endCommand_regs, setRegs_regs, hregs]
  rfl

/-- However TOUCH_ACQUIRE ends, it leaves the acquired window and its count (R201, R206). -/
theorem Acquired.window (h : Acquired s n xs ys) {t : State} (ht : exec .touchAcquire s = .next t) :
    t.regs.swx = xs ∧ t.regs.swy = ys ∧ t.regs.swCount = BitVec.ofNat 4 n := by
  obtain ⟨-, hacquired⟩ := h
  obtain ⟨_, _, hregs, -⟩ := exec_body ht
  obtain ⟨_, _, _, hbody⟩ := touchAcquireBody_regs (beginCommand s)
  rw [hregs, bodyOf, hbody, hacquired]
  exact ⟨rfl, rfl, rfl⟩

end Verdict

/-- The acquisition of whatever the environment answers: the pairs, the events, the window (R201). -/
theorem acquired_spec (s : State) : ∃ (pairs : List (Word × Word)) (xs ys : Vector Word 9), pairs.length ≤ 9 ∧
    Acquired s pairs.length xs ys ∧
    (acquireLoop 9 0 (clearRawValid (beginCommand s))).2.events = s.events ++
      (pairs.flatMap fun p => [.gpioRead .asserted, .touchXchg .x p.1, .touchXchg .y p.2]) ++
      (if pairs.length = 9 then [] else [.gpioRead .deasserted]) ∧
    (∀ k : Fin 9, xs[k] = (pairs[k.val]?.map Prod.fst).getD s.regs.swx[k]) ∧
    (∀ k : Fin 9, ys[k] = (pairs[k.val]?.map Prod.snd).getD s.regs.swy[k]) := by
  obtain ⟨pairs, hlen, hcount, hevents, hx, hy, hregs⟩ :=
    acquireLoop_spec 9 0 (clearRawValid (beginCommand s)) (by omega)
  rw [Nat.zero_add] at hcount
  refine ⟨pairs, (acquireLoop 9 0 (clearRawValid (beginCommand s))).2.regs.swx,
    (acquireLoop 9 0 (clearRawValid (beginCommand s))).2.regs.swy, hlen, ⟨hcount, ?_⟩, hevents,
    fun k => (hx k).trans (if_pos (Nat.zero_le _)), fun k => (hy k).trans (if_pos (Nat.zero_le _))⟩
  rw [acquire, setRegs_regs, hcount]
  exact congrArg (fun r : Regs => { r with swCount := BitVec.ofNat 4 pairs.length }) hregs

/-! ### The acquisition of supplied samples -/

/-- The samples of one axis stored from index `n` on (R201). -/
def storeFrom : Nat → List Word → Vector Word 9 → Vector Word 9
  | _, [], v => v
  | n, x :: xs, v => storeFrom (n + 1) xs (v.setIfInBounds n x)

/-- What an index of the window holds after the samples are stored (R201). -/
theorem storeFrom_getElem (xs : List Word) (n : Nat) (v : Vector Word 9) {k : Nat} (hk : k < 9) :
    (storeFrom n xs v)[k] = if n ≤ k then xs[k - n]?.getD v[k] else v[k] := by
  induction xs generalizing n v with
  | nil => simp [storeFrom]
  | cons x xs ih =>
    rw [storeFrom, ih, Vector.getElem_setIfInBounds]
    obtain hlt | rfl | hgt := lt_trichotomy n k
    · rw [if_pos (Nat.succ_le_of_lt hlt), if_pos hlt.le, if_neg hlt.ne, show k - n = k - (n + 1) + 1 by omega,
        List.getElem?_cons_succ]
    · simp
    · rw [if_neg (by omega), if_neg hgt.ne', if_neg (by omega)]

/-- A whole window stored replaces the window (R201). -/
theorem storeFrom_toList (xs v : Vector Word 9) : storeFrom 0 xs.toList v = xs := by
  ext k hk
  rw [storeFrom_getElem _ _ _ hk]
  simp [hk]

/-- A poll with a level supplied returns it (R64; log entry 4). -/
theorem tpReady_supplied {l : Link} {level : Level} {rest : List Level} (h : l.env.ready = level :: rest) :
    l.tpReady.1 = level ∧ l.tpReady.2.env = { l.env with ready := rest } := by
  simp [Link.tpReady, Env.drawReady, h]

/-- A reading with a sample supplied returns it (R65; log entry 4). -/
theorem touchRead_supplied (ch : Channel) {l : Link} {v : Word} {rest : List Word} (h : l.env.touch = v :: rest) :
    (l.touchRead ch).1 = v ∧ (l.touchRead ch).2.env = { l.env with touch := rest } := by
  simp [Link.touchRead, Link.select, Env.drawTouch, h]

/-- A pair with its samples supplied is stored at its index (R201; log entry 4). -/
theorem samplePair_supplied {n : Nat} {s : State} {x y : Word} {rest : List Word}
    (h : s.link.env.touch = x :: y :: rest) :
    (samplePair n s).regs =
      { s.regs with swx := s.regs.swx.setIfInBounds n x, swy := s.regs.swy.setIfInBounds n y } ∧
    (samplePair n s).link.env = { s.link.env with touch := rest } := by
  obtain ⟨hx, henv⟩ := touchRead_supplied .x h
  obtain ⟨hy, henv'⟩ := touchRead_supplied .y (l := (s.link.touchRead .x).2) (v := y) (rest := rest) (by rw [henv])
  rw [samplePair, setRegs_regs, setRegs_link, setLink_link, hx, hy, henv', henv]
  exact ⟨rfl, rfl⟩

/-- With a level and two samples ahead for each pair the loop stores them all (R201; log entry 4). -/
theorem acquireLoop_supplied {levels : List Level} {samples : List Word} (pairs : List (Word × Word)) (n : Nat)
    (s : State) (hready : s.link.env.ready = List.replicate pairs.length .asserted ++ levels)
    (htouch : s.link.env.touch = (pairs.flatMap fun p => [p.1, p.2]) ++ samples) :
    (acquireLoop pairs.length n s).1 = n + pairs.length ∧
    (acquireLoop pairs.length n s).2.regs = { s.regs with
      swx := storeFrom n (pairs.map Prod.fst) s.regs.swx, swy := storeFrom n (pairs.map Prod.snd) s.regs.swy } := by
  induction pairs generalizing n s with
  | nil => exact ⟨rfl, rfl⟩
  | cons p pairs ih =>
    obtain ⟨hlevel, henv⟩ := tpReady_supplied hready
    obtain ⟨hregs, henv'⟩ := samplePair_supplied (n := n) (s := s.setLink s.link.tpReady.2)
      (x := p.1) (y := p.2) (rest := (pairs.flatMap fun p => [p.1, p.2]) ++ samples)
      (by rw [setLink_link, henv]; exact htouch)
    rw [setLink_link, henv] at henv'
    obtain ⟨hcount, hloop⟩ := ih (n + 1) (samplePair n (s.setLink s.link.tpReady.2)) (by rw [henv']; rfl)
      (by rw [henv'])
    rw [List.length_cons, acquireLoop_pair hlevel]
    refine ⟨by omega, ?_⟩
    rw [hloop, hregs]
    rfl

/-- With nine levels and eighteen samples ahead the acquisition stores the two windows (R201; log entry 4). -/
theorem acquired_supplied {s : State} {xs ys : Vector Word 9} {levels : List Level} {samples : List Word}
    (hready : s.link.env.ready = List.replicate 9 .asserted ++ levels)
    (htouch : s.link.env.touch = ((List.zip xs.toList ys.toList).flatMap fun p => [p.1, p.2]) ++ samples) :
    Acquired s 9 xs ys := by
  have hlen : (List.zip xs.toList ys.toList).length = 9 := by simp
  have hloop := acquireLoop_supplied (List.zip xs.toList ys.toList) 0 (clearRawValid (beginCommand s))
    (by rw [hlen]; exact hready) htouch
  rw [hlen, List.map_fst_zip (by simp), List.map_snd_zip (by simp), storeFrom_toList, storeFrom_toList] at hloop
  obtain ⟨hcount, hregs⟩ := hloop
  refine ⟨hcount, ?_⟩
  rw [acquire, setRegs_regs, hcount, hregs]
  rfl

end Sys2Proof.Machine
end

