-- ==== Sys2Proof/Proofs/TouchFilter.lean ====
section
/-! THEOREMS. The touch commands (44_touch_filter.md R200 to R207). -/

namespace Sys2Proof.Machine

/-- Settles O41, by the tie-break on the group averages. -/
theorem filterRejectsOrAveragesAClosestPair : Obligations.FilterRejectsOrAveragesAClosestPair := by
  refine fun threshold v => ⟨(filterAxis_none threshold v).trans noisy_iff, fun r h => ?_⟩
  rw [filterAxis_some h]
  exact selectAverage_spec _ _ _

/-- Settles O42, by the two tests of the body in their order: the count, then the filter. -/
theorem touchFilterVerdict : Obligations.TouchFilterVerdict := by
  refine ⟨decode_encode .touchFilter, fun s => ⟨fun hcount => ?_, fun hcount hnoisy => ?_,
    fun rx ry hcount hx hy => ?_⟩⟩
  · exact exec_of_raised (i := .touchFilter) (touchFilterBody_incomplete (s := beginCommand s) hcount)
  · exact exec_of_raised (i := .touchFilter)
      ((touchFilterBody_complete (s := beginCommand s) hcount).trans (runFilter_noisy hnoisy))
  · exact exec_of_ok (i := .touchFilter)
      ((touchFilterBody_complete (s := beginCommand s) hcount).trans (runFilter_ok hx hy))

/-- Settles O43: the pairs are those of the acquisition, and their number and the filter decide the ending. -/
theorem touchAcquirePollsBeforeEveryPair : Obligations.TouchAcquirePollsBeforeEveryPair := by
  intro s
  obtain ⟨pairs, xs, ys, hlen, hacquired, hevents, hx, hy⟩ := acquired_spec s
  obtain ⟨t, ht⟩ : ∃ t, exec .touchAcquire s = .next t := ⟨_, exec_eq .touchAcquire s⟩
  obtain ⟨hwx, hwy, hwcount⟩ := hacquired.window ht
  have hlink := (exec_link ht).trans (body_link_touchAcquire _)
  refine ⟨t, pairs, ht, hlen, exec_frame ht, ?_, ?_, ?_, ?_, ?_, ?_, ?_, ?_⟩
  · rw [State.events, hlink]
    exact hevents
  · rw [hwcount, BitVec.toNat_ofNat]
    omega
  · rw [hwx]
    exact hx
  · rw [hwy]
    exact hy
  · rw [hlink]
    exact acquireLoop_panel 9 0 _
  · rw [hlink]
    exact acquireLoop_bus 9 0 (clearRawValid (beginCommand s))
  · intro hshort
    rw [hwx, hwy, hwcount]
    exact exec_regs_unique ht (hacquired.exec_incomplete hshort)
  · intro hnine
    rw [hnine] at hacquired
    rw [hwx, hwy]
    exact ⟨fun hnoisy => exec_regs_unique ht (hacquired.exec_noisy hnoisy),
      fun rx ry hrx hry => exec_regs_unique ht (hacquired.exec_filtered hrx hry)⟩

/-- Settles O44: the supplied samples are the window the filter runs on. -/
theorem touchAcquireStoresTheFilteredPoint : Obligations.TouchAcquireStoresTheFilteredPoint := by
  intro s xs ys levels samples hready htouch
  have hacquired := acquired_supplied hready htouch
  exact ⟨fun rx ry hx hy => hacquired.exec_filtered hx hy, fun hnoisy => hacquired.exec_noisy hnoisy⟩

end Sys2Proof.Machine
end

