-- ==== Sys2Proof/Proofs/CalibrationFacts.lean ====
section
/-! SUPPORT. The calibration commands, one rule per part: the magnitude of an apply numerator (45_calibration.md R224),
how CAL_SOLVE ends (R225), what a command that applies the map answers (R223, R226, R227), and the map at a reference
point (R228). -/

namespace Sys2Proof.Machine

/-! ### Magnitudes -/

/-- The magnitude of an apply numerator (R224): 2 * 2^49 + 3 * 2^48 is below 2^51. -/
theorem applyNumerator_bound {a b c : Int} (ha : a.natAbs < 2 ^ 33) (hb : b.natAbs < 2 ^ 33)
    (hc : c.natAbs < 3 * 2 ^ 48) (xs ys : Word) :
    (a * (xs.toNat : Int) + b * (ys.toNat : Int) + c).natAbs < 2 ^ 51 := by
  have hx := word_int xs
  have hy := word_int ys
  have hax := mul_natAbs_le (a := a) (b := xs.toNat) (m := 2 ^ 33) (n := 65535) (by omega) (by omega)
  have hby := mul_natAbs_le (a := b) (b := ys.toNat) (m := 2 ^ 33) (n := 65535) (by omega) (by omega)
  omega

/-! ### How CAL_SOLVE ends -/

/-- CAL_SOLVE of collinear screen points (R225). -/
theorem calSolveBody_collinear {s : State} (h : s.regs.solveDivider = 0) :
    calSolveBody s = .raised .degenerateCalibration (s.setRegs { s.regs with divider := 0 }) :=
  if_pos h

/-- CAL_SOLVE of screen points that are not collinear (R225). -/
theorem calSolveBody_solved {s : State} (h : s.regs.solveDivider ≠ 0) :
    calSolveBody s = .ok (s.setRegs (solvedRegs s.regs)) :=
  if_neg h

/-- A CAL_SOLVE that succeeds clears the report and stores the seven registers (R225, R240). -/
theorem exec_calSolve {s : State} (h : s.regs.solveDivider ≠ 0) :
    exec .calSolve s = .next { s with regs := clearedRegs (solvedRegs s.regs) } :=
  exec_of_ok (i := .calSolve) (calSolveBody_solved (s := beginCommand s) h)

/-! ### What a command that applies the map answers -/

/-- The command `i` from `s` ends as an apply of the map to `(xs, ys)` does (R226, R227). -/
def Applies (i : Instr) (s : State) (xs ys : Word) : Prop :=
  bodyOf i (beginCommand s) = storePoint (clearDispValid (beginCommand s)) (applyMatrix s.regs xs ys)

section
variable {i : Instr} {s : State} {xs ys : Word}

/-- An apply that raises an error clears DISP_VALID and keeps the results (R226). -/
theorem Applies.exec_error {e : ErrCode} (h : Applies i s xs ys) (he : applyMatrix s.regs xs ys = .error e) :
    exec i s = .next { s with regs := { failedRegs e s.regs with dispValid := false } } := by
  rw [Applies, he] at h
  exact exec_of_raised h

theorem Applies.exec_degenerate (h : Applies i s xs ys) (hd : s.regs.divider = 0) :
    exec i s = .next { s with regs := { failedRegs .degenerateCalibration s.regs with dispValid := false } } := by
  obtain ⟨hdegenerate, -⟩ := applyMatrix_spec s.regs xs ys
  exact h.exec_error (hdegenerate hd)

theorem Applies.exec_outOfRange (h : Applies i s xs ys) (hd : s.regs.divider ≠ 0)
    (hq : ¬ (0 ≤ s.regs.quotX xs ys ∧ s.regs.quotX xs ys ≤ 65535 ∧
      0 ≤ s.regs.quotY xs ys ∧ s.regs.quotY xs ys ≤ 65535)) :
    exec i s = .next { s with regs := { failedRegs .resultRange s.regs with dispValid := false } } := by
  obtain ⟨-, hrange, -⟩ := applyMatrix_spec s.regs xs ys
  exact h.exec_error (hrange hd hq)

/-- An apply whose quotients are the coordinates `px` and `py` stores them twice and sets DISP_VALID (R226). -/
theorem Applies.exec_point {px py : Word} (h : Applies i s xs ys) (hd : s.regs.divider ≠ 0)
    (hx : (px.toNat : Int) = s.regs.quotX xs ys) (hy : (py.toNat : Int) = s.regs.quotY xs ys) :
    exec i s = .next { s with regs := { clearedRegs s.regs with
      res0 := px, res1 := py, dispX := px, dispY := py, dispValid := true } } := by
  obtain ⟨-, -, hpoint⟩ := applyMatrix_spec s.regs xs ys
  rw [Applies, hpoint px py hd hx hy] at h
  exact exec_of_ok h

end

/-- CAL_APPLY applies the map to its operands (R226). -/
theorem applies_calApply (s : State) : Applies .calApply s (s.regs.x 0) (s.regs.x 1) := rfl

/-- CAL_APPLY_RAW with a cached raw point applies the map to it (R227). -/
theorem applies_calApplyRaw {s : State} (h : s.regs.rawValid = true) :
    Applies .calApplyRaw s s.regs.rawX s.regs.rawY :=
  if_pos h

/-- CAL_APPLY_RAW without one (R227). -/
theorem calApplyRawBody_noPoint {s : State} (h : s.regs.rawValid = false) :
    calApplyRawBody s = .raised .noRawPoint (clearDispValid s) :=
  if_neg (by simp [h])

/-! ### The map at a reference point -/

/-- The abscissa operand of screen point `k` (R220). -/
def Regs.screenX (r : Regs) (k : Fin 3) : Word := r.arg[6 + 2 * k.val]

/-- The ordinate operand of screen point `k` (R220). -/
def Regs.screenY (r : Regs) (k : Fin 3) : Word := r.arg[7 + 2 * k.val]

/-- The abscissa operand of display point `k` (R220). -/
def Regs.displayX (r : Regs) (k : Fin 3) : Word := r.arg[2 * k.val]

/-- The ordinate operand of display point `k` (R220). -/
def Regs.displayY (r : Regs) (k : Fin 3) : Word := r.arg[2 * k.val + 1]

/-- Cramer's rule at the three points: the numerator is the coordinate paired with it, times the divider (R228). -/
theorem calMap_at_referencePoint (p xs ys : Fin 3 → Int) (k : Fin 3) :
    calA (p 0) (p 1) (p 2) (ys 0) (ys 1) (ys 2) * xs k + calB (p 0) (p 1) (p 2) (xs 0) (xs 1) (xs 2) * ys k +
      calC (p 0) (p 1) (p 2) (xs 0) (ys 0) (xs 1) (ys 1) (xs 2) (ys 2) =
    p k * calDivider (xs 0) (ys 0) (xs 1) (ys 1) (xs 2) (ys 2) := by
  simp only [calA, calB, calC, calDivider]
  match k with
  | 0 => ring
  | 1 => ring
  | 2 => ring

/-- So its quotient by the divider is that coordinate, with no rounding (R228). -/
theorem calMap_quotient (p xs ys : Fin 3 → Int) (k : Fin 3)
    (h : calDivider (xs 0) (ys 0) (xs 1) (ys 1) (xs 2) (ys 2) ≠ 0) :
    Int.tdiv (calA (p 0) (p 1) (p 2) (ys 0) (ys 1) (ys 2) * xs k + calB (p 0) (p 1) (p 2) (xs 0) (xs 1) (xs 2) * ys k +
        calC (p 0) (p 1) (p 2) (xs 0) (ys 0) (xs 1) (ys 1) (xs 2) (ys 2))
      (calDivider (xs 0) (ys 0) (xs 1) (ys 1) (xs 2) (ys 2)) = p k := by
  rw [calMap_at_referencePoint, Int.mul_tdiv_cancel _ h]

theorem quotX_solvedRegs {r : Regs} (h : r.solveDivider ≠ 0) (k : Fin 3) :
    (solvedRegs r).quotX (r.screenX k) (r.screenY k) = ((r.displayX k).toNat : Int) := by
  obtain ⟨hd, ha, hb, hc, -⟩ := solvedRegs_exact r
  rw [Regs.quotX, numerator, hd, ha, hb, hc]
  exact calMap_quotient (fun j => (r.displayX j).toNat) (fun j => (r.screenX j).toNat)
    (fun j => (r.screenY j).toNat) k h

theorem quotY_solvedRegs {r : Regs} (h : r.solveDivider ≠ 0) (k : Fin 3) :
    (solvedRegs r).quotY (r.screenX k) (r.screenY k) = ((r.displayY k).toNat : Int) := by
  obtain ⟨hd, -, -, -, ha, hb, hc⟩ := solvedRegs_exact r
  rw [Regs.quotY, numerator, hd, ha, hb, hc]
  exact calMap_quotient (fun j => (r.displayY j).toNat) (fun j => (r.screenX j).toNat)
    (fun j => (r.screenY j).toNat) k h

/-- The divider a successful CAL_SOLVE stores is not zero (R225). -/
theorem solvedRegs_divider_ne_zero {r : Regs} (h : r.solveDivider ≠ 0) : (solvedRegs r).divider ≠ 0 := by
  obtain ⟨hd, -⟩ := solvedRegs_exact r
  intro h0
  rw [h0] at hd
  exact h hd.symm

/-- The quotients depend on the matrix alone (R223). -/
theorem SameMatrix.quotX_eq {t u : State} (h : SameMatrix t u) : u.regs.quotX = t.regs.quotX := by
  obtain ⟨ha, hb, hc, -, -, -, hd⟩ := h
  funext xs ys
  rw [Regs.quotX, Regs.quotX, ha, hb, hc, hd]

theorem SameMatrix.quotY_eq {t u : State} (h : SameMatrix t u) : u.regs.quotY = t.regs.quotY := by
  obtain ⟨-, -, -, ha, hb, hc, hd⟩ := h
  funext xs ys
  rw [Regs.quotY, Regs.quotY, ha, hb, hc, hd]

end Sys2Proof.Machine
end

