-- ==== Sys2Proof/Proofs/Calibration.lean ====
section
/-! THEOREMS. Calibration (45_calibration.md R220 to R228). -/

namespace Sys2Proof.Machine

/-- Settles O45: every magnitude is that of a sum of products of operands. -/
theorem matrixMagnitudes : Obligations.MatrixMagnitudes := by
  intro p0 p1 p2 xs0 ys0 xs1 ys1 xs2 ys2 d a b c
  have hd : d.natAbs < 2 ^ 33 :=
    calDivider_bound (word_int _) (word_int _) (word_int _) (word_int _) (word_int _) (word_int _)
  have ha : a.natAbs < 2 ^ 33 :=
    calDivider_bound (word_int _) (word_int _) (word_int _) (word_int _) (word_int _) (word_int _)
  have hb : b.natAbs < 2 ^ 33 := by
    rw [show b = _ from calB_eq _ _ _ _ _ _]
    exact calDivider_bound (word_int _) (word_int _) (word_int _) (word_int _) (word_int _) (word_int _)
  have hc : c.natAbs < 3 * 2 ^ 48 := calC_bound (word_int _) (word_int _) (word_int _) (word_int _) (word_int _)
    (word_int _) (word_int _) (word_int _) (word_int _)
  exact ⟨hd, ha, hb, hc, applyNumerator_bound ha hb hc, i64_toInt (hd.trans (by decide)),
    i64_toInt (ha.trans (by decide)), i64_toInt (hb.trans (by decide)), i64_toInt (hc.trans (by decide))⟩

/-- Settles O46, by the test of the body on the divider and the exactness of the registers. -/
theorem calSolveStoresTheExactMatrix : Obligations.CalSolveStoresTheExactMatrix := by
  refine ⟨decode_encode .calSolve, fun s => ⟨fun hdet => ?_, fun hdet => ?_⟩⟩
  · exact ⟨_, exec_calSolve hdet, rfl, solvedRegs_exact s.regs⟩
  · exact exec_of_raised (i := .calSolve) (calSolveBody_collinear (s := beginCommand s) hdet)

/-- Settles O47: CAL_APPLY is an apply of the map to its operands. -/
theorem calApplyEvaluatesTheMap : Obligations.CalApplyEvaluatesTheMap := by
  refine ⟨decode_encode .calApply, fun s => ?_⟩
  have happly := applies_calApply s
  exact ⟨happly.exec_degenerate, happly.exec_outOfRange, fun _ _ => happly.exec_point⟩

/-- Settles O48: the test of RAW_VALID comes first, and with a cached point it is an apply of the map to that. -/
theorem calApplyRawUsesTheCachedPoint : Obligations.CalApplyRawUsesTheCachedPoint := by
  refine ⟨decode_encode .calApplyRaw, fun s => ⟨fun hraw => ?_, fun hraw => ?_, fun hraw => ?_,
    fun _ _ hraw => ?_⟩⟩
  · exact exec_of_raised (i := .calApplyRaw) (calApplyRawBody_noPoint (s := beginCommand s) hraw)
  · exact (applies_calApplyRaw hraw).exec_degenerate
  · exact (applies_calApplyRaw hraw).exec_outOfRange
  · exact (applies_calApplyRaw hraw).exec_point

/-- Settles O49: at a reference point the solved matrix has the display coordinates as its exact quotients. -/
theorem referencePointsMapExactly : Obligations.ReferencePointsMapExactly := by
  intro s hdet
  refine ⟨_, exec_calSolve hdet, fun u hu k hxs hys => ?_⟩
  have hx0 : u.regs.x 0 = s.regs.screenX k := hxs
  have hx1 : u.regs.x 1 = s.regs.screenY k := hys
  have happly : Applies .calApply u (s.regs.screenX k) (s.regs.screenY k) := hx0 ▸ hx1 ▸ applies_calApply u
  have hdivider : u.regs.divider ≠ 0 := by
    obtain ⟨-, -, -, -, -, -, hd⟩ := hu
    rw [hd]
    exact solvedRegs_divider_ne_zero hdet
  have hx : ((s.regs.displayX k).toNat : Int) = u.regs.quotX (s.regs.screenX k) (s.regs.screenY k) := by
    rw [hu.quotX_eq]
    exact (quotX_solvedRegs hdet k).symm
  have hy : ((s.regs.displayY k).toNat : Int) = u.regs.quotY (s.regs.screenX k) (s.regs.screenY k) := by
    rw [hu.quotY_eq]
    exact (quotY_solvedRegs hdet k).symm
  exact ⟨_, happly.exec_point hdivider hx hy, rfl, rfl, rfl, rfl, rfl, rfl⟩

end Sys2Proof.Machine
end

