-- ==== Sys2Proof/Proofs/ExceptionsFacts.lean ====
section
/-! SUPPORT. The life of a command and the invariant between two steps, one rule per part: the report a command ends
with (60_exceptions.md R240 to R242), a CMD word that is no command (R243), the matrix after a command (45_calibration.md
R224), and the invariant after each access of the host. -/

namespace Sys2Proof.Machine

/-! ### The report -/

/-- A command whose body leaves the report to the common start and end is idle after it, with a code 0..8 that is
non-zero exactly when ERR is set (R240, R241, R242). -/
theorem command_report {body : State → Ended} {s : State}
    (hkept : Kept (beginCommand s) (body (beginCommand s)).state) :
    (command body s).regs.busy = false ∧ (command body s).regs.err = ((command body s).regs.errCode != 0) ∧
      (command body s).regs.errCode.toNat ≤ 8 := by
  obtain ⟨u, hu, hend⟩ | ⟨e, u, -, hend⟩ := command_cases body s <;> rw [hend]
  · rw [hu] at hkept
    have herr : (endCommand u).regs.err = false := hkept.err
    have hcode : (endCommand u).regs.errCode = 0 := hkept.code
    rw [herr, hcode]
    exact ⟨rfl, rfl, Nat.zero_le 8⟩
  · obtain ⟨hne, hle⟩ := code_range e
    exact ⟨rfl, (bne_iff_ne.2 hne).symm, hle⟩

/-! ### A word that is no command -/

/-- A word with a non-zero upper byte, or with the opcode of no command, does not decode (R101). -/
theorem decode_rejects {w : Word} (h : w.extractLsb' 8 8 ≠ 0 ∨ ∀ i, opcodeOf i ≠ w.extractLsb' 0 8) :
    ∃ e, decode w = .error e := by
  cases hw : decode w with
  | error e => exact ⟨e, rfl⟩
  | ok i =>
    obtain ⟨hzero, hop⟩ := decode_eq_ok_iff.1 hw
    obtain hupper | hopcode := h
    · exact absurd hzero hupper
    · exact absurd (opcodeOf_of_commandOf hop) (hopcode i)

/-- The common start, then ILLEGAL_CMD: the report alone changes (R243). -/
theorem illegalCommand_eq (s : State) : illegalCommand s = s.setRegs (failedRegs .illegalCmd s.regs) := rfl

/-- A write of CMD while BUSY = 0 with a word that does not decode (R22, R243). -/
theorem hostWrite_illegal {s : State} {w : Word} {e : Reject} (h : s.regs.busy = false) (hw : decode w = .error e) :
    hostWrite cmdIndex w s = .next (s.setRegs (failedRegs .illegalCmd s.regs)) := by
  simp [hostWrite, h, issue, hw, illegalCommand_eq]

/-- A write of another register while BUSY = 0 (R20, R21). -/
theorem hostWrite_register {s : State} {i : BitVec 7} (h : s.regs.busy = false) (hi : i ≠ cmdIndex) (v : Word) :
    hostWrite i v s = .next (s.setRegs (writeReg i v s.regs)) := by
  simp [hostWrite, h, hi]

/-! ### The matrix -/

/-- Only CAL_SOLVE writes the matrix (R31, R275). -/
theorem body_sameMatrix {i : Instr} (h : i ≠ .calSolve) (s : State) : SameMatrix s (bodyOf i s).state := by
  unfold SameMatrix
  rcases body_regs i s with hb | ⟨_, _, hb⟩ | ⟨_, _, hb⟩ | ⟨_, _, _, _, _, _, _, hb⟩ | ⟨_, _, _, _, hb⟩ | ⟨hi, _⟩ |
    ⟨_, hb | ⟨_, _, hb⟩⟩
  case inr.inr.inr.inr.inr.inl => exact absurd hi h
  all_goals rw [hb]; exact ⟨rfl, rfl, rfl, rfl, rfl, rfl, rfl⟩

theorem SameMatrix.bounded {s t : State} (h : SameMatrix s t) (hm : MatrixBounded s.regs) : MatrixBounded t.regs := by
  obtain ⟨ha, hb, hc, hd, he, hf, hdiv⟩ := h
  exact ⟨ha ▸ hm.an, hb ▸ hm.bn, hc ▸ hm.cn, hd ▸ hm.dn, he ▸ hm.en, hf ▸ hm.fn, hdiv ▸ hm.divider⟩

/-- The matrix of any operands is in the ranges of R224. -/
theorem solvedRegs_bounded (r : Regs) : MatrixBounded (solvedRegs r) := by
  obtain ⟨hdiv, ha, hb, hc, hd, he, hf⟩ := solvedRegs_exact r
  have b : ∀ k, 0 ≤ r.xInt k ∧ r.xInt k ≤ 65535 := fun k => word_int _
  have det : ∀ i j k l m n,
      (calDivider (r.xInt i) (r.xInt j) (r.xInt k) (r.xInt l) (r.xInt m) (r.xInt n)).natAbs < 2 ^ 33 :=
    fun _ _ _ _ _ _ => calDivider_bound (b _) (b _) (b _) (b _) (b _) (b _)
  exact {
    an := by rw [ha, calA_eq]; exact det ..
    bn := by rw [hb, calB_eq]; exact det ..
    cn := by rw [hc]; exact (calC_bound (b _) (b _) (b _) (b _) (b _) (b _) (b _) (b _) (b _)).trans (by decide)
    dn := by rw [hd, calA_eq]; exact det ..
    en := by rw [he, calB_eq]; exact det ..
    fn := by rw [hf]; exact (calC_bound (b _) (b _) (b _) (b _) (b _) (b _) (b _) (b _) (b _)).trans (by decide)
    divider := by rw [hdiv]; exact det .. }

/-- CAL_SOLVE leaves a matrix in range: the solved one, or the old coefficients with a zero divider (R224, R225). -/
theorem calSolveBody_bounded {s : State} (hm : MatrixBounded s.regs) : MatrixBounded (calSolveBody s).state.regs := by
  by_cases h : s.regs.solveDivider = 0
  · rw [calSolveBody_collinear h]
    exact { hm with divider := matrixBounded_reset.divider }
  · rw [calSolveBody_solved h]
    exact solvedRegs_bounded s.regs

/-- A command leaves the matrix in the ranges of R224. -/
theorem exec_matrixBounded {i : Instr} {s t : State} (h : exec i s = .next t) (hm : MatrixBounded s.regs) :
    MatrixBounded t.regs := by
  have hbody : MatrixBounded (bodyOf i (beginCommand s)).state.regs := by
    by_cases hi : i = .calSolve
    · subst hi
      exact calSolveBody_bounded (s := beginCommand s) { hm with }
    · exact (body_sameMatrix hi (beginCommand s)).bounded { hm with }
  obtain ⟨_, _, hregs, _⟩ := exec_body h
  rw [hregs]
  exact { hbody with }

/-! ### The invariant after each access -/

/-- The invariant speaks of the registers, the configuration, the panel and the bus alone. -/
theorem Inv.congr {s t : State} (h : Inv s) (hregs : t.regs = s.regs) (hcfg : t.cfg = s.cfg)
    (hpanel : t.link.panel = s.link.panel) (hbus : t.link.bus = s.link.bus) : Inv t where
  idle := by rw [hregs]; exact h.idle
  bus := hbus.trans h.bus
  report := by rw [hregs]; exact h.report
  code := by rw [hregs]; exact h.code
  panel := by rw [hcfg, hpanel]; exact h.panel
  matrix := by rw [hregs]; exact h.matrix

/-- A command keeps the invariant: its report is set by its end, the bus comes back to the display, every frame keeps
the panel well formed, and CAL_SOLVE alone writes the matrix. -/
theorem exec_inv {i : Instr} {s t : State} (h : Inv s) (ht : exec i s = .next t) : Inv t := by
  obtain ⟨-, hcfg, -, -⟩ := commandsKeepOperandsAndConfiguration i s t ht
  obtain ⟨hidle, hreport, hcode⟩ := command_report (body_kept i (beginCommand s))
  rw [exec_next_iff.1 ht] at hidle hreport hcode
  exact {
    idle := hidle
    bus := busStaysOnTheDisplay i s t ht h.bus
    report := hreport
    code := hcode
    panel := by
      rw [hcfg]
      exact exec_keeps_panel (receive_wf s.cfg) ht h.panel
    matrix := exec_matrixBounded ht h.matrix }

/-- An illegal word sets the report alone (R243). -/
theorem illegalCommand_inv {s : State} (h : Inv s) : Inv (s.setRegs (failedRegs .illegalCmd s.regs)) where
  idle := rfl
  bus := h.bus
  report := rfl
  code := (code_range .illegalCmd).2
  panel := h.panel
  matrix := { h.matrix with }

/-- The registers the host can write are not among those the invariant speaks of (R20). -/
theorem writeReg_inv {s : State} (h : Inv s) (i : BitVec 7) (v : Word) : Inv (s.setRegs (writeReg i v s.regs)) := by
  obtain ⟨_, _, _, _, hr⟩ := writeReg_rest i v s.regs
  rw [hr]
  exact { h with matrix := { h.matrix with } }

/-- A host write runs a command, is an illegal word, or stores in a register (R20 to R22, R243). -/
theorem hostWrite_inv {s t : State} {i : BitVec 7} {v : Word} (h : Inv s) (ht : hostWrite i v s = .next t) : Inv t := by
  by_cases hi : i = cmdIndex
  · subst hi
    cases hw : decode v with
    | ok j =>
      rw [hostWrite_command h.idle hw] at ht
      exact exec_inv h ht
    | error e =>
      rw [hostWrite_illegal h.idle hw] at ht
      cases ht
      exact illegalCommand_inv h
  · rw [hostWrite_register h.idle hi] at ht
    cases ht
    exact writeReg_inv h i v

theorem hostRead_inv {s : State} (h : Inv s) (i : BitVec 7) : Inv (hostRead i s) := by
  obtain ⟨hregs, hcfg, hpanel, hbus⟩ := hostRead_spec i s
  exact h.congr hregs hcfg hpanel hbus

/-- Reset of the DFC clears the registers and leaves the panel and the bus (R33, R271). -/
theorem resetDfc_inv {s : State} (h : Inv s) : Inv (resetDfc s) :=
  { invariantHoldsAtReset with bus := h.bus, panel := h.panel }

theorem hostAccess_inv {a : HostAccess} {s t : State} (h : Inv s) (ht : hostAccess a s = .next t) : Inv t := by
  cases a with
  | write i v => exact hostWrite_inv h ht
  | read i =>
    cases ht
    exact hostRead_inv h i
  | reset =>
    cases ht
    exact resetDfc_inv h

end Sys2Proof.Machine
end

