-- ==== Sys2Proof/Proofs/Exceptions.lean ====
section
/-! THEOREMS. Errors (60_exceptions.md R240 to R243): every command ends and reports, an illegal word only reports, every
step keeps the invariant. -/

namespace Sys2Proof.Machine

/-- Settles O58, by the access the step takes; with none pending the DFC waits. -/
theorem everyStepKeepsTheInvariant : Obligations.EveryStepKeepsTheInvariant := by
  intro s t h ht
  cases hs : s.host with
  | nil =>
    simp only [step, hs] at ht
    cases ht
    exact h
  | cons a rest =>
    rw [step_access hs] at ht
    exact hostAccess_inv (h.congr (t := { s with host := rest }) rfl rfl rfl rfl) ht

/-- Settles O9: every body leaves the report to the command's common start and end. -/
theorem everyCommandTerminatesAndReports : Obligations.EveryCommandTerminatesAndReports := by
  intro i s
  obtain ⟨hidle, hreport, hcode⟩ := command_report (body_kept i (beginCommand s))
  exact ⟨_, exec_eq i s, hidle, by rw [hreport, bne_iff_ne], hcode⟩

/-- Settles O4: such a word does not decode, and the write then only reports. -/
theorem illegalWordOnlyReports : Obligations.IllegalWordOnlyReports := by
  intro s w rest hs h hw
  obtain ⟨_, he⟩ := decode_rejects hw
  rw [step_access hs]
  exact hostWrite_illegal (s := { s with host := rest }) h he

end Sys2Proof.Machine
end

