-- ==== Sys2Proof/Proofs/ResetAndHazards.lean ====
section
/-! THEOREMS. Reset of the DFC (70_reset_and_hazards.md R270, R271) and the writers of the session state (R275). -/

namespace Sys2Proof.Machine

/-- CAL_SOLVE is the matrix's one writer among the commands (R31, R275). -/
theorem exec_sameMatrix {i : Instr} {s t : State} (h : exec i s = .next t) (hi : i ≠ .calSolve) : SameMatrix s t := by
  obtain ⟨_, _, hregs, _⟩ := exec_body h
  rw [SameMatrix, hregs]
  exact body_sameMatrix hi (beginCommand s)

/-- Settles O52, by the registers each body can write. -/
theorem sharedStateHasOneWriter : Obligations.SharedStateHasOneWriter := by
  intro i s t h
  have hmatrix := exec_sameMatrix h
  obtain ⟨_, _, hregs, _⟩ := exec_body h
  rw [hregs]
  rcases body_regs i (beginCommand s) with hb | ⟨_, _, hb⟩ | ⟨hi, _, hb⟩ | ⟨hi, _, _, _, _, _, _, hb⟩ |
    ⟨hi, _, _, _, hb⟩ | ⟨_, hb | hb⟩ | ⟨hi, hb | ⟨_, _, hb⟩⟩ <;> rw [hb]
  -- SET_ORIENT; TOUCH_ACQUIRE; TOUCH_FILTER; an apply that fails; an apply that stores its point.
  case inr.inr.inl =>
    exact ⟨fun hn => absurd hi hn, hmatrix, fun _ => ⟨rfl, rfl, rfl⟩, fun _ => ⟨rfl, rfl, rfl⟩⟩
  case inr.inr.inr.inl =>
    have hmem : i ∈ [Instr.touchAcquire, .touchFilter] := hi ▸ List.mem_cons_self
    exact ⟨fun _ => ⟨rfl, rfl⟩, hmatrix, fun hn => absurd hmem hn, fun _ => ⟨rfl, rfl, rfl⟩⟩
  case inr.inr.inr.inr.inl =>
    have hmem : i ∈ [Instr.touchAcquire, .touchFilter] := hi ▸ List.mem_cons_of_mem _ List.mem_cons_self
    exact ⟨fun _ => ⟨rfl, rfl⟩, hmatrix, fun hn => absurd hmem hn, fun _ => ⟨rfl, rfl, rfl⟩⟩
  case inr.inr.inr.inr.inr.inr.inl | inr.inr.inr.inr.inr.inr.inr =>
    exact ⟨fun _ => ⟨rfl, rfl⟩, hmatrix, fun _ => ⟨rfl, rfl, rfl⟩, fun hn => absurd hi hn⟩
  all_goals exact ⟨fun _ => ⟨rfl, rfl⟩, hmatrix, fun _ => ⟨rfl, rfl, rfl⟩, fun _ => ⟨rfl, rfl, rfl⟩⟩

/-- Settles O12: the step takes the access, and `resetDfc` names what it resets. -/
theorem resetOfTheDfcLeavesThePanel : Obligations.ResetOfTheDfcLeavesThePanel := by
  intro s rest hs
  exact ⟨resetDfc { s with host := rest }, step_access hs, rfl, rfl, rfl, rfl, rfl, rfl, rfl, rfl⟩

end Sys2Proof.Machine
end
